-- ==== Sys2Proof/Word.lean ====
section
/-! DEFINITION. The one word type of the hardware: every register, memory cell, operand byte and ALU input is an unsigned
8-bit value (R6 `XLEN`, R7). -/

namespace Sys2Proof

/-- An 8-bit unsigned value, bit 7 the most significant (R7). -/
abbrev Byte := BitVec 8

end Sys2Proof
end

