-- ==== Sys2Proof/Syntax.lean ====
section
/-! DEFINITION. The instructions: one constructor per row of spec/opcode_table.json, and the names the instruction decoder
gives its outputs (R51). -/

namespace Sys2Proof

/-- The total length of an instruction in bytes, decoded from its first byte (R34). -/
inductive Width where
  | one
  | two
  | three
  deriving DecidableEq, Repr

/-- A width as a number of bytes (R34). -/
def Width.bytes : Width → Nat
  | .one => 1
  | .two => 2
  | .three => 3

/-- The ten opcodes the table assigns (R38). -/
inductive Op where
  | ldi | add | mul | cmp | prn | push | pop | call | ret | hlt
  deriving DecidableEq, Repr

/-- The two classes of the source's step 3 (R38, R47). -/
inductive InstrClass where
  /-- The step ends with the advance of `pc` by the width. -/
  | sequential
  /-- The instruction sets `pc` itself and the advance is skipped. -/
  | controlTransfer
  deriving DecidableEq, Repr

/-- The operand bytes an instruction carries: formats F1, F2 and F3 (R33). -/
inductive Operands where
  | none
  | one (a : Byte)
  | two (a b : Byte)
  deriving DecidableEq, Repr

/-- The width of the instruction that carries these operands: the opcode byte and the operand bytes. -/
def Operands.width : Operands → Width
  | .none => .one
  | .one _ => .two
  | .two _ _ => .three

/-- The operand bytes in address order (R33). -/
def Operands.toList : Operands → List Byte
  | .none => []
  | .one a => [a]
  | .two a b => [a, b]

/-- An instruction. A register operand is the whole operand byte: the encoding does not restrict it to 0..7, and the
check is made when the instruction runs (R37, R46, C2). -/
inductive Instr where
  /-- `LDI Ra,imm` (R61). -/
  | ldi (a imm : Byte)
  /-- `ADD Ra,Rb` (R57). -/
  | add (a b : Byte)
  /-- `MUL Ra,Rb` (R58). -/
  | mul (a b : Byte)
  /-- `CMP Ra,Rb` (R59). -/
  | cmp (a b : Byte)
  /-- `PRN Ra` (R62). -/
  | prn (a : Byte)
  /-- `PUSH Ra` (R65). -/
  | push (a : Byte)
  /-- `POP Ra` (R66). -/
  | pop (a : Byte)
  /-- `CALL Ra` (R68). -/
  | call (a : Byte)
  /-- `RET` (R69). -/
  | ret
  /-- `HLT` (R70). -/
  | hlt
  /-- Any of the other 246 opcode bytes `ir`, with the operand bytes its width gives it, which are fetched and ignored
  (R71). -/
  | unrecognized (ir : Byte) (ops : Operands)
  deriving DecidableEq, Repr

end Sys2Proof
end

