-- ==== Sys2Proof/Decode.lean ====
section
/-! DEFINITION. The instruction encoding: the opcode table, the decoder's outputs (R51), decoding of bytes and encoding of
instructions, both from that one table. -/

namespace Sys2Proof

/-- The opcode byte of each assigned instruction (R38). LDI, PRN and HLT are the source's values; UNVERIFIED for the
other seven, the spec's decision D1 from general knowledge (log entry 7). -/
def opcodeOf : Op → Byte
  | .ldi => 0x82
  | .add => 0xA0
  | .mul => 0xA2
  | .cmp => 0xA7
  | .prn => 0x47
  | .push => 0x45
  | .pop => 0x46
  | .call => 0x50
  | .ret => 0x11
  | .hlt => 0x01

/-- The opcode table: each assigned byte with its instruction (R38). -/
def opcodeTable : List (Byte × Op) :=
  [Op.ldi, .add, .mul, .cmp, .prn, .push, .pop, .call, .ret, .hlt].map fun op => (opcodeOf op, op)

/-- Which instruction an opcode byte selects, by its exact value; `none` is UNRECOGNIZED (R35, R38, R40). -/
def opOf (ir : Byte) : Option Op :=
  (opcodeTable.find? fun row => row.1 == ir).map Prod.snd

/-- `Width(IR)` (R34): bit 7 takes precedence over bit 6. -/
def widthOf (ir : Byte) : Width :=
  if ir.getLsbD 7 then .three else if ir.getLsbD 6 then .two else .one

/-- `Class(IR)` (R47): Control-transfer for CALL and RET, Sequential for every other byte. -/
def classOf (ir : Byte) : InstrClass :=
  match opOf ir with
  | some .call => .controlTransfer
  | some .ret => .controlTransfer
  | _ => .sequential

/-- ALU selector of ADD (R55). -/
def aluAdd : BitVec 2 := 0b00
/-- ALU selector of MUL (R55). -/
def aluMul : BitVec 2 := 0b01
/-- ALU selector of CMP (R55). -/
def aluCmp : BitVec 2 := 0b10

/-- The ALU selector the decoder produces for ADD, MUL and CMP; the ALU is used by no other instruction (R51, R55). -/
def aluSelectorOf (ir : Byte) : Option (BitVec 2) :=
  match opOf ir with
  | some .add => some aluAdd
  | some .mul => some aluMul
  | some .cmp => some aluCmp
  | _ => none

/-- Format F1 (R33): an instruction with no operand byte. -/
def formatF1 (i : Instr) : Operands → Option Instr
  | .none => some i
  | .one _ => none
  | .two _ _ => none

/-- Format F2 (R33): an instruction with operand byte A. -/
def formatF2 (make : Byte → Instr) : Operands → Option Instr
  | .none => none
  | .one a => some (make a)
  | .two _ _ => none

/-- Format F3 (R33): an instruction with operand bytes A and B. -/
def formatF3 (make : Byte → Byte → Instr) : Operands → Option Instr
  | .none => none
  | .one _ => none
  | .two a b => some (make a b)

/-- The instruction an assigned opcode makes with the operand bytes its width gives it (R38). `none` only where an
opcode's width does not fit its format, which no row of the table does (R39, log entry 21). -/
def assembleOp : Op → Operands → Option Instr
  | .ldi => formatF3 .ldi
  | .add => formatF3 .add
  | .mul => formatF3 .mul
  | .cmp => formatF3 .cmp
  | .prn => formatF2 .prn
  | .push => formatF2 .push
  | .pop => formatF2 .pop
  | .call => formatF2 .call
  | .ret => formatF1 .ret
  | .hlt => formatF1 .hlt

/-- The instruction of an opcode byte and its operand bytes: the table's, else an unrecognized one (R47). -/
def assemble (ir : Byte) (ops : Operands) : Instr :=
  ((opOf ir).bind fun op => assembleOp op ops).getD (.unrecognized ir ops)

/-- Why bytes do not decode. Every byte sequence long enough for its first byte's width decodes (R40). -/
inductive DecodeError where
  /-- There is no byte at all. -/
  | missingOpcode
  /-- The width asks for operand byte A and there is none. -/
  | missingOperandA
  /-- The width asks for operand byte B and there is none. -/
  | missingOperandB
  deriving DecidableEq, Repr

/-- The operand bytes that the width says are present, and the rest (R45). -/
def takeOperands : Width → List Byte → Except DecodeError (Operands × List Byte)
  | .one, rest => .ok (.none, rest)
  | .two, a :: rest => .ok (.one a, rest)
  | .two, [] => .error .missingOperandA
  | .three, a :: b :: rest => .ok (.two a b, rest)
  | .three, [_] => .error .missingOperandB
  | .three, [] => .error .missingOperandA

/-- Decode the instruction at the head of a byte sequence, with the bytes after it (R33, R34, R47). -/
def decode : List Byte → Except DecodeError (Instr × List Byte)
  | [] => .error .missingOpcode
  | ir :: bytes =>
    match takeOperands (widthOf ir) bytes with
    | .ok (ops, rest) => .ok (assemble ir ops, rest)
    | .error e => .error e

/-- The opcode byte of an instruction (R38). -/
def Instr.opcode : Instr → Byte
  | .ldi _ _ => opcodeOf .ldi
  | .add _ _ => opcodeOf .add
  | .mul _ _ => opcodeOf .mul
  | .cmp _ _ => opcodeOf .cmp
  | .prn _ => opcodeOf .prn
  | .push _ => opcodeOf .push
  | .pop _ => opcodeOf .pop
  | .call _ => opcodeOf .call
  | .ret => opcodeOf .ret
  | .hlt => opcodeOf .hlt
  | .unrecognized ir _ => ir

/-- The operand bytes of an instruction (R33). -/
def Instr.operands : Instr → Operands
  | .ldi a imm => .two a imm
  | .add a b => .two a b
  | .mul a b => .two a b
  | .cmp a b => .two a b
  | .prn a => .one a
  | .push a => .one a
  | .pop a => .one a
  | .call a => .one a
  | .ret => .none
  | .hlt => .none
  | .unrecognized _ ops => ops

/-- The bytes of an instruction in address order (R33). -/
def encode (i : Instr) : List Byte :=
  i.opcode :: i.operands.toList

/-- The first `n` bytes of a number whose bits 7..0 are the first byte (the opcode table's numbering). -/
def bytesOfNat : Nat → Nat → List Byte
  | 0, _ => []
  | n + 1, w => BitVec.ofNat 8 w :: bytesOfNat n (w / 256)

/-- The bytes of a table word of `nbits` bits, continued with zeros up to the longest instruction, three bytes. -/
def tableWordBytes (nbits w : Nat) : List Byte :=
  bytesOfNat 3 (w % 2 ^ nbits)

/-- The instruction this decoder reads from the table word `w` of `nbits` bits. -/
def decodeTableWord (nbits w : Nat) : Option Instr :=
  match decode (tableWordBytes nbits w) with
  | .ok (i, _) => some i
  | .error _ => none

end Sys2Proof
end

