-- ==== Sys2Proof/Config.lean ====
section
/-! DEFINITION. The implementation parameters and the values this hardware takes (R6). The one parameter the spec leaves
open, `MEM_INIT`, is the type `MemInit`; which of its values a run has is held in `State.memInit` (log entry 3). The
opcode bytes, a table the spec also calls a configuration (D1), are in Decode.lean. The hardware leaves no instruction's
result undefined, so there is no free value here. -/

namespace Sys2Proof

/-- `MEM_INIT`, the initial content of memory before the load (R6, R23, D6). -/
inductive MemInit where
  /-- `PARTIAL_CLEAR`: cells 0..7 hold 0, the others hold no value. The spec's default. -/
  | partialClear
  /-- `FULL_ZERO`: every cell holds 0. -/
  | fullZero
  deriving DecidableEq, Repr

/-- `MEM_SIZE` (R6, R22): the number of memory cells. -/
def Config.memSize : Nat := 256

/-- `CLEARED_CELLS` (R6): the cells zeroed under `PARTIAL_CLEAR` are those below this address. -/
def Config.clearedCells : Nat := 8

/-- `SP_INIT` (R6, R12): the reset value of register 7. -/
def Config.spInit : Byte := 0xF4

/-- The default of the open parameter `MEM_INIT` (R6, R23). -/
def Config.memInitDefault : MemInit := .partialClear

end Sys2Proof
end

