-- ==== Sys2Proof/Machine/State.lean ====
section
/-! DEFINITION. All the state the spec gives the machine (10_state.md, 20_memory.md R23), as plain data, and the state
right after reset (R12 to R20, R85, R86). -/

namespace Sys2Proof.Machine

/-- The run state (R17). -/
inductive RunState where
  /-- A step is taken only here. -/
  | running
  /-- Entered by HLT alone; left by reset alone (R70, R84). -/
  | halted
  /-- Entered by a fault; left by reset alone (R74, R76). -/
  | faulted
  deriving DecidableEq, Repr

/-- The fault causes of R73. -/
inductive FaultCause where
  /-- An operand byte's address, the advance or CALL's return address is 256 or more. -/
  | invalidAddress
  /-- A register-index operand is 8..255. -/
  | invalidRegister
  /-- A memory read of a cell that holds no value. -/
  | uninitializedRead
  deriving DecidableEq, Repr

/-- The flags register: the three condition flags (R14) and the unused general flags byte `FL` (R15). -/
structure Flags where
  e : Bool
  l : Bool
  g : Bool
  fl : Byte
  deriving DecidableEq, Repr

/-- The instruction register, the operand latches and the decoded width (R19). No rule reads them across steps. -/
structure Latches where
  ir : Byte
  a : Byte
  b : Byte
  width : Width
  deriving DecidableEq, Repr

/-- The listed cells of memory, by rising address; what an unlisted cell reads as is `initialCell` in Ops.lean. -/
abbrev Memory := List Host.Cell

/-- The state of the block and of the memory it reaches (10_state.md's summary). -/
structure State where
  /-- R0..R7; R7 is the stack pointer (R9, R11). -/
  regs : Vector Byte 8
  /-- The address of the instruction's first byte (R13). -/
  pc : Byte
  flags : Flags
  run : RunState
  /-- `fault_code`; `none` is NONE (R18). -/
  faultCode : Option FaultCause
  /-- The `pc` of the faulting instruction (R18). -/
  faultPc : Byte
  latches : Latches
  /-- The output trace, oldest byte first (R20). -/
  out : List Byte
  /-- The value of the spec's open parameter `MEM_INIT` in this run: the model's own field (R6, R23, log entry 3). -/
  memInit : MemInit
  mem : Memory
  deriving DecidableEq, Repr

/-- The reasons for which a step would answer `fault`: there are none. A fault of this hardware is a state the block
enters, FAULTED with its fault record (R74), so it is a next state, and nothing else stops the block; no meaning raises one
(log entry 1). -/
inductive Fault where
  deriving DecidableEq, Repr

/-- The reasons for which a step would answer `refused`. -/
inductive Refusal where
  /-- Raised by exec's arm of an instruction that has no meaning yet; safe. Every instruction of the table has its
  meaning, so nothing raises it. -/
  | notModelled (mnemonic : String)
  deriving DecidableEq, Repr

/-- The machine right after reset (R85, R86): every value is the spec's, but for the latches, which the spec leaves
unspecified and unobservable (DESIGN CHOICE, log entry 5), and `memInit`, which is the spec's default (log entry 3). -/
def State.reset : State where
  regs := #v[0, 0, 0, 0, 0, 0, 0, Config.spInit]
  pc := 0
  flags := { e := false, l := false, g := false, fl := 0 }
  run := .running
  faultCode := none
  faultPc := 0
  latches := { ir := 0, a := 0, b := 0, width := .one }
  out := []
  memInit := Config.memInitDefault
  mem := []

end Sys2Proof.Machine
end

