-- ==== Sys2Proof/Machine/Ops.lean ====
section
/-! DEFINITION. The named operations over memory, registers, `pc` and the run state that every instruction is written
with; taking a fault (R74), the all-or-nothing end of a step (R49), and the reset of the block (R85). -/

namespace Sys2Proof.Machine

/-! ## Memory cells -/

/-- What an address that memory does not list holds: the initial content of R23. `none` is 'holds no value', which is also
what there is outside memory. -/
def initialCell (mi : MemInit) (addr : Nat) : Option Byte :=
  if Config.memSize ≤ addr then none
  else
    match mi with
    | .fullZero => some 0
    | .partialClear => if addr < Config.clearedCells then some 0 else none

/-- The byte a memory lists for an address. -/
def Memory.listed : Memory → Nat → Option Byte
  | [], _ => none
  | (k, v) :: rest, addr => if k = addr then some v else Memory.listed rest addr

/-- List byte `v` at `addr`, in rising order of addresses. -/
def Memory.insert (addr : Nat) (v : Byte) : Memory → Memory
  | [] => [(addr, v)]
  | (k, w) :: rest =>
    if addr < k then (addr, v) :: (k, w) :: rest
    else if addr = k then (addr, v) :: rest
    else (k, w) :: Memory.insert addr v rest

/-- List nothing at `addr`. -/
def Memory.remove (addr : Nat) (m : Memory) : Memory :=
  m.filter fun cell => cell.1 != addr

/-- Cell `addr` becomes `v`; a cell that becomes what it reads as unlisted is not listed. -/
def Memory.write (mi : MemInit) (addr : Nat) (v : Byte) (m : Memory) : Memory :=
  if initialCell mi addr = some v then Memory.remove addr m else Memory.insert addr v m

/-- The canonical form: addresses strictly rising and inside memory, and no entry equal to what an unlisted address reads
as. -/
abbrev Memory.wf (mi : MemInit) (m : Memory) : Prop :=
  m.Pairwise (fun x y => x.1 < y.1) ∧ ∀ cell ∈ m, cell.1 < Config.memSize ∧ initialCell mi cell.1 ≠ some cell.2

/-- What cell `addr` holds: a byte, or no value (R23). -/
def cellAt (s : State) (addr : Nat) : Option Byte :=
  (Memory.listed s.mem addr).or (initialCell s.memInit addr)

/-- `MemRead(addr, 1)` (R24). -/
def memRead (s : State) (addr : Nat) : Except FaultCause Byte :=
  if Config.memSize ≤ addr then .error .invalidAddress
  else
    match cellAt s addr with
    | none => .error .uninitializedRead
    | some v => .ok v

/-- `MemWrite(addr, 1, v)` (R25): it cannot fault, and the cell then holds a value. -/
def memWrite (s : State) (addr v : Byte) : State :=
  { s with mem := Memory.write s.memInit addr.toNat v s.mem }

/-! ## Registers and the stack pointer -/

/-- The stack pointer is register 7 (R11). -/
def spReg : Fin 8 := 7

/-- `R[r]` (R8, R9). -/
def getReg (s : State) (r : Fin 8) : Byte :=
  s.regs.get r

/-- `R[r] <- v` (R8, R9). -/
def setReg (s : State) (r : Fin 8) (v : Byte) : State :=
  { s with regs := s.regs.set r.val v r.isLt }

/-- `SP` (R8, R11). -/
def sp (s : State) : Byte :=
  getReg s spReg

/-- `SP <- (SP - 1) mod 256`: SPdec (R64). -/
def decSp (s : State) : State :=
  setReg s spReg (sp s - 1)

/-- `SP <- (SP + 1) mod 256`: SPinc (R64). -/
def incSp (s : State) : State :=
  setReg s spReg (sp s + 1)

/-! ## Output, the program counter and the run state -/

/-- `Output(v)` (R8, R62, R63): the byte joins the output trace. -/
def emit (s : State) (v : Byte) : State :=
  { s with out := s.out ++ [v] }

/-- `pc <- target` (R8). -/
def setPc (s : State) (target : Byte) : State :=
  { s with pc := target }

/-- `next = pc + width`, an unbounded integer; the width is that of the opcode byte `ir` (R34, R43). -/
def nextAddress (ir : Byte) (s : State) : Nat :=
  s.pc.toNat + (widthOf ir).bytes

/-- An address that must be below 256 to be held in 8 bits (R48, R68). -/
def checkAddress (addr : Nat) : Except FaultCause Byte :=
  if Config.memSize ≤ addr then .error .invalidAddress else .ok (BitVec.ofNat 8 addr)

/-- `Advance(next)` (R48). -/
def advance (next : Nat) (s : State) : Except FaultCause State := do
  let target ← checkAddress next
  pure (setPc s target)

/-- `halt` (R8, R70). -/
def halt (s : State) : State :=
  { s with run := .halted }

/-! ## Faults and the end of a step -/

/-- Fault entry (R74): the run state and the fault record change, and nothing else does. -/
def enterFault (code : FaultCause) (s : State) : State :=
  { s with run := .faulted, faultCode := some code, faultPc := s.pc }

/-- The end of a step that began in `s` (R49): all of its writes when every check passed, else only the fault entry. -/
def commit (s : State) (result : Except FaultCause State) : Host.Outcome State Fault Refusal :=
  match result with
  | .ok t => .next t
  | .error code => .next (enterFault code s)

/-! ## Reset -/

/-- Reset asserted and released (R85, R86): the block's state becomes that of reset, and memory, which is outside the
block, keeps its content. The latches, unspecified by R85, take the values of `State.reset` (log entry 5). -/
def resetBlock (s : State) : State :=
  { State.reset with memInit := s.memInit, mem := s.mem }

end Sys2Proof.Machine
end

