-- ==== Sys2Proof/Machine/Boot.lean ====
section
/-! DEFINITION. How a run begins and what the host sees of it: initialising memory and loading a program image while the
block is held in reset (R87, R88), and the text the host makes of the output trace (R63). Reading the image's text file is
the Loader's and out of scope (R4). -/

namespace Sys2Proof.Machine

/-- Boot steps (1) and (2) (R87): the block in reset, memory initialised by `MEM_INIT`. -/
def coldState (mi : MemInit) : State :=
  { State.reset with memInit := mi, mem := [] }

/-- Boot step (3) (R87): the bytes placed at ascending addresses from `addr`. -/
def placeImage : Nat → List Byte → State → State
  | _, [], s => s
  | addr, b :: rest, s => placeImage (addr + 1) rest (memWrite s (BitVec.ofNat 8 addr) b)

/-- An image of more than 256 values or with a value above 255 is refused (R88). -/
def imageFits (image : List Nat) : Bool :=
  decide (image.length ≤ Config.memSize) && image.all fun v => decide (v < 256)

/-- Boot (R87): the state at reset release, or `none` where the load is refused and the block never runs (R88, R89). -/
def boot (mi : MemInit) (image : List Nat) : Option State :=
  if imageFits image then some (placeImage 0 (image.map (BitVec.ofNat 8)) (coldState mi)) else none

/-- The line of text the host prints for one emitted byte: its decimal numeral and a line end (R63). -/
def outputLine (v : Byte) : String :=
  toString v.toNat ++ "\n"

/-- The text the host prints for an output trace (R63). -/
def outputText (out : List Byte) : String :=
  String.join (out.map outputLine)

end Sys2Proof.Machine
end

