-- ==== Sys2Proof/Machine/Flags.lean ====
section
/-! DEFINITION. The ALU block (R54 to R56) and its only effect on the flags register: a set strobe sets its flag, and
nothing clears one (R14, R54). -/

namespace Sys2Proof.Machine

/-- The outputs of the ALU (R54). -/
structure AluOut where
  /-- The 8-bit result. -/
  y : Byte
  /-- Result-write enable. -/
  we : Bool
  setE : Bool
  setL : Bool
  setG : Bool
  /-- The report of an unsupported selector: it changes no state (R55, R78). -/
  err : Bool
  deriving DecidableEq, Repr

/-- `alu(op, a, b)` (R54, R55, R56): a pure function of the 2-bit selector and two unsigned bytes. Sum and product are
exact and then reduced modulo 256. -/
def alu (op : BitVec 2) (a b : Byte) : AluOut :=
  if op = aluAdd then
    { y := BitVec.ofNat 8 ((a.toNat + b.toNat) % 256), we := true, setE := false, setL := false, setG := false, err := false }
  else if op = aluMul then
    { y := BitVec.ofNat 8 ((a.toNat * b.toNat) % 256), we := true, setE := false, setL := false, setG := false, err := false }
  else if op = aluCmp then
    { y := 0, we := false, setE := a == b, setL := decide (a.toNat < b.toNat), setG := decide (b.toNat < a.toNat), err := false }
  else
    { y := 0, we := false, setE := false, setL := false, setG := false, err := true }

/-- The flags after the ALU's strobes (R54): a strobe of false leaves its flag, and `FL` is never written (R15). -/
def strobeFlags (y : AluOut) (f : Flags) : Flags :=
  { f with e := f.e || y.setE, l := f.l || y.setL, g := f.g || y.setG }

/-- The effect of the ALU's outputs: the result goes to register `dest` when the write enable is set, and the strobes go to
the flags (R54). -/
def applyAlu (dest : Fin 8) (y : AluOut) (s : State) : State :=
  let t := if y.we then setReg s dest y.y else s
  { t with flags := strobeFlags y t.flags }

end Sys2Proof.Machine
end

