-- ==== Sys2Proof/Machine/Operands.lean ====
section
/-! DEFINITION. The operand forms (R36, R37) and the fetch of an instruction's bytes (R43 to R45). An operand byte is a
register index, checked by `regIndex` when the instruction runs, or an immediate, used as it stands. -/

namespace Sys2Proof.Machine

/-- `Reg(i)` (R46): a register index of 8..255 faults; the byte is not masked. -/
def regIndex (i : Byte) : Except FaultCause (Fin 8) :=
  if h : i.toNat < 8 then .ok ⟨i.toNat, h⟩ else .error .invalidRegister

/-- Both register operands of ADD, MUL and CMP, A checked before B (R46, R75). -/
def regIndexPair (a b : Byte) : Except FaultCause (Fin 8 × Fin 8) := do
  let ra ← regIndex a
  let rb ← regIndex b
  pure (ra, rb)

/-- An 8-bit immediate (R36): the operand byte itself, with no extension and no check. -/
def immediate (b : Byte) : Byte :=
  b

/-- The bytes one step has fetched: IR and the operand bytes its width asks for (R33). -/
structure Fetched where
  ir : Byte
  ops : Operands
  deriving DecidableEq, Repr

/-- The fetched bytes in address order. -/
def fetchedBytes (f : Fetched) : List Byte :=
  f.ir :: f.ops.toList

/-- Operand fetch (R45): only the operand bytes the width says are present are read, A before B. -/
def fetchOperands (s : State) : Width → Except FaultCause Operands
  | .one => pure .none
  | .two => do
    let a ← memRead s (s.pc.toNat + 1)
    pure (.one a)
  | .three => do
    let a ← memRead s (s.pc.toNat + 1)
    let b ← memRead s (s.pc.toNat + 2)
    pure (.two a b)

/-- Fetch, width decode and operand fetch (R43, R44, R45). -/
def fetch (s : State) : Except FaultCause Fetched := do
  let ir ← memRead s s.pc.toNat
  let ops ← fetchOperands s (widthOf ir)
  pure { ir := ir, ops := ops }

/-- What the latches hold after a step that fetched `f` (R19); an operand that is absent is not read, so its latch is left
as it was (R45, log entry 6). -/
def latchFetched (f : Fetched) (old : Latches) : Latches :=
  match f.ops with
  | .none => { old with ir := f.ir, width := .one }
  | .one a => { old with ir := f.ir, a := a, width := .two }
  | .two a b => { ir := f.ir, a := a, b := b, width := .three }

/-- The latches' part of the end of a step: written when the step completes, left alone when it faults (R49, log entry
6). -/
def latchOutcome (f : Fetched) :
    Host.Outcome State Fault Refusal → Host.Outcome State Fault Refusal
  | .next t =>
    match t.run with
    | .faulted => .next t
    | .running => .next { t with latches := latchFetched f t.latches }
    | .halted => .next { t with latches := latchFetched f t.latches }
  | .fault r => .fault r
  | .refused r => .refused r

end Sys2Proof.Machine
end

