-- ==== Sys2Proof/Machine/Alu.lean ====
section
/-! DEFINITION. The arithmetic instructions ADD, MUL and CMP (41_alu_ops.md). -/

namespace Sys2Proof.Machine

/-- The shape the three share (R57, R58, R59): both register checks, the ALU on the two old values, its effect, the
advance. -/
def aluInstruction (op : Op) (selector : BitVec 2) (a b : Byte) (s : State) : Except FaultCause State := do
  let (ra, rb) ← regIndexPair a b
  advance (nextAddress (opcodeOf op) s) (applyAlu ra (alu selector (getReg s ra) (getReg s rb)) s)

/-- ADD (R57). -/
def execAdd (a b : Byte) (s : State) : Host.Outcome State Fault Refusal :=
  commit s (aluInstruction .add aluAdd a b s)

/-- MUL (R58). -/
def execMul (a b : Byte) (s : State) : Host.Outcome State Fault Refusal :=
  commit s (aluInstruction .mul aluMul a b s)

/-- CMP (R59): operand A is the left one, compared as unsigned bytes (D8, log entry 8). -/
def execCmp (a b : Byte) (s : State) : Host.Outcome State Fault Refusal :=
  commit s (aluInstruction .cmp aluCmp a b s)

end Sys2Proof.Machine
end

