-- ==== Sys2Proof/Machine/Stack.lean ====
section
/-! DEFINITION. The stack instructions PUSH and POP (43_stack_ops.md), and the decrement-and-store that PUSH and CALL
share. -/

namespace Sys2Proof.Machine

/-- `SP <- (SP - 1) mod 256`, then the byte that `value` reads from the state after the decrement is stored at SP (R65,
R68, D19). -/
def pushByte (value : State → Byte) (s : State) : State :=
  memWrite (decSp s) (sp (decSp s)) (value (decSp s))

/-- PUSH (R65): R[a] is read after the decrement, so PUSH R7 stores the new SP. -/
def execPush (a : Byte) (s : State) : Host.Outcome State Fault Refusal :=
  commit s do
    let ra ← regIndex a
    advance (nextAddress (opcodeOf .push) s) (pushByte (fun t => getReg t ra) s)

/-- POP (R66): the increment is of R7 as the load left it, so POP R7 ends at the popped byte plus one. -/
def execPop (a : Byte) (s : State) : Host.Outcome State Fault Refusal :=
  commit s do
    let ra ← regIndex a
    let v ← memRead s (sp s).toNat
    advance (nextAddress (opcodeOf .pop) s) (incSp (setReg s ra v))

end Sys2Proof.Machine
end

