-- ==== Sys2Proof/Machine/Control.lean ====
section
/-! DEFINITION. Control transfer, halt and unrecognized opcodes: CALL, RET, HLT and (unrecognized)
(44_control_and_halt.md). -/

namespace Sys2Proof.Machine

/-- CALL (R68): the return address is `pc` plus CALL's width (C1, D9); the target is read after the decrement, so CALL R7
jumps to the new SP (D19). No advance follows. -/
def execCall (a : Byte) (s : State) : Host.Outcome State Fault Refusal :=
  commit s do
    let ra ← regIndex a
    let returnAddress ← checkAddress (nextAddress (opcodeOf .call) s)
    let t := pushByte (fun _ => returnAddress) s
    pure (setPc t (getReg t ra))

/-- RET (R69). No advance follows. -/
def execRet (s : State) : Host.Outcome State Fault Refusal :=
  commit s do
    let v ← memRead s (sp s).toNat
    pure (incSp (setPc s v))

/-- HLT (R70): Sequential, so the advance follows, and at address 255 it faults and the halt does not take effect (R48,
C5). -/
def execHlt (s : State) : Host.Outcome State Fault Refusal :=
  commit s (advance (nextAddress (opcodeOf .hlt) s) (halt s))

/-- An unrecognized opcode (R71): only the advance by its width; its operand bytes are ignored and not checked (D26). -/
def execUnrecognized (ir : Byte) (_ops : Operands) (s : State) : Host.Outcome State Fault Refusal :=
  commit s (advance (nextAddress ir s) s)

end Sys2Proof.Machine
end

