-- ==== Sys2Proof/Machine/LoadOutput.lean ====
section
/-! DEFINITION. Load immediate and output: LDI and PRN (42_load_and_output.md). -/

namespace Sys2Proof.Machine

/-- LDI (R61). -/
def execLdi (a imm : Byte) (s : State) : Host.Outcome State Fault Refusal :=
  commit s do
    let ra ← regIndex a
    advance (nextAddress (opcodeOf .ldi) s) (setReg s ra (immediate imm))

/-- PRN (R62). -/
def execPrn (a : Byte) (s : State) : Host.Outcome State Fault Refusal :=
  commit s do
    let ra ← regIndex a
    advance (nextAddress (opcodeOf .prn) s) (emit s (getReg s ra))

end Sys2Proof.Machine
end

