-- ==== Sys2Proof/Machine/Step.lean ====
section
/-! DEFINITION. One step of the machine (R43), and the placing of an instruction where the next step fetches it. -/

namespace Sys2Proof.Machine

/-- `Step()` (R43): in RUNNING, fetch, then the meaning of the fetched instruction, then the latches. Outside RUNNING no
step is taken, and the block stays as it is (R17, R50, R84, R96; DEDUCED, log entry 2). -/
def step (s : State) : Host.Outcome State Fault Refusal :=
  match s.run with
  | .running =>
    match fetch s with
    | .error code => commit s (.error code)
    | .ok f => latchOutcome f (exec (assemble f.ir f.ops) s)
  | .halted => .next s
  | .faulted => .next s

/-- `s` with the table word's instruction stored at `pc`, as far as memory reaches, and RUNNING, since only then is anything
fetched (log entries 14 and 15). -/
def State.withFetchWord (s : State) (nbits w : Nat) : State :=
  { placeImage s.pc.toNat ((tableWordBytes nbits w).take (Config.memSize - s.pc.toNat)) s with run := .running }

end Sys2Proof.Machine
end

