-- ==== Sys2Proof/Machine/Ports.lean ====
section
/-! DEFINITION. The observation outputs of the block interface (R53) as functions of the state. The clock, the reset input
and the strobes of the memory and output ports are cycle-level and not normative (R5, R52, D12). -/

namespace Sys2Proof.Machine

/-- The 2-bit `fault_code` (R53, R73). -/
def faultCodeBits : Option FaultCause → BitVec 2
  | none => 0
  | some .invalidAddress => 1
  | some .invalidRegister => 2
  | some .uninitializedRead => 3

/-- The observation outputs (R53): they do not change behaviour (R83). -/
structure Ports where
  halted : Bool
  faulted : Bool
  faultCode : BitVec 2
  flagE : Bool
  flagL : Bool
  flagG : Bool
  deriving DecidableEq, Repr

/-- The observation outputs in a state (R53). -/
def ports (s : State) : Ports :=
  { halted := s.run == .halted
    faulted := s.run == .faulted
    faultCode := faultCodeBits s.faultCode
    flagE := s.flags.e
    flagL := s.flags.l
    flagG := s.flags.g }

end Sys2Proof.Machine
end

