-- ==== Sys2Proof/WellFormed.lean ====
section
/-! DEFINITION. Two checks on an instruction as syntax: `wellFormed`, that its bytes are an encoding of it, and
`registersInRange`, that its register operands name registers. The second is no condition of decoding: an instruction with
a register operand of 8..255 decodes, runs and raises InvalidRegister (R37, R46). -/

namespace Sys2Proof

/-- An unrecognized instruction's byte is none of the table's, and it carries the operand bytes that its byte's width gives
it (R34, R71). The other instructions are well formed whatever their operand bytes are (R36, R37). -/
def Instr.wellFormed : Instr → Bool
  | .unrecognized ir ops => (opOf ir).isNone && widthOf ir == ops.width
  | _ => true

/-- Every register-index operand is in 0..7 (R37); LDI's immediate and an unrecognized instruction's operands are not
register indices (R46). -/
def Instr.registersInRange : Instr → Bool
  | .ldi a _ => a.toNat < 8
  | .add a b => a.toNat < 8 && b.toNat < 8
  | .mul a b => a.toNat < 8 && b.toNat < 8
  | .cmp a b => a.toNat < 8 && b.toNat < 8
  | .prn a => a.toNat < 8
  | .push a => a.toNat < 8
  | .pop a => a.toNat < 8
  | .call a => a.toNat < 8
  | .ret => true
  | .hlt => true
  | .unrecognized _ _ => true

end Sys2Proof
end

