-- ==== Sys2Proof/Safety.lean ====
section
/-! DEFINITION. The terms in which claims speak of the machine: runs and how they end (R50, R95), which fault a step
reports (R75), what a CMP step compares (R60), what no instruction reads (R14, R15, R19, R20), and the invariant of the
machine's state. -/

namespace Sys2Proof.Machine

/-! ## Runs -/

/-- The state after `n` steps (R50). -/
def stateAfter : Nat → State → State
  | 0, s => s
  | n + 1, s =>
    match step (stateAfter n s) with
    | .next t => t
    | .fault _ => stateAfter n s
    | .refused _ => stateAfter n s

/-- The run has ended well (R95). -/
def endedWell (s : State) : Prop :=
  s.run = .halted

/-- The run has ended badly (R95). -/
def endedBadly (s : State) : Prop :=
  s.run = .faulted

/-- The cells from `addr` on hold these bytes, all of them inside memory. -/
def holdsBytes (s : State) : Nat → List Byte → Prop
  | _, [] => True
  | addr, b :: rest => addr < Config.memSize ∧ cellAt s addr = some b ∧ holdsBytes s (addr + 1) rest

/-- The opcode byte a step of this state fetches, where the block is RUNNING and the cell at `pc` holds a value. -/
def currentOpcode (s : State) : Option Byte :=
  match s.run with
  | .running => cellAt s s.pc.toNat
  | .halted => none
  | .faulted => none

/-! ## Which fault a step reports (R75), check by check -/

/-- One of checks (2) and (3): the operand byte at `pc + k`. -/
def operandFault (s : State) (k : Nat) : Option FaultCause :=
  if 256 ≤ s.pc.toNat + k then some .invalidAddress
  else if cellAt s (s.pc.toNat + k) = none then some .uninitializedRead
  else none

/-- Checks (2) and (3) in order, for the operand bytes a width asks for. -/
def operandsFault (s : State) : Width → Option FaultCause
  | .one => none
  | .two => operandFault s 1
  | .three => (operandFault s 1).or (operandFault s 2)

/-- Check (6): CALL's return address, POP's and RET's stack read. -/
def ownFault (s : State) : Instr → Option FaultCause
  | .call _ => if 256 ≤ s.pc.toNat + 2 then some .invalidAddress else none
  | .pop _ => if cellAt s (sp s).toNat = none then some .uninitializedRead else none
  | .ret => if cellAt s (sp s).toNat = none then some .uninitializedRead else none
  | .ldi _ _ => none
  | .add _ _ => none
  | .mul _ _ => none
  | .cmp _ _ => none
  | .prn _ => none
  | .push _ => none
  | .hlt => none
  | .unrecognized _ _ => none

/-- Check (7): the advance of a Sequential instruction. -/
def advanceFault (s : State) (i : Instr) : Option FaultCause :=
  match classOf i.opcode with
  | .controlTransfer => none
  | .sequential => if 256 ≤ s.pc.toNat + (widthOf i.opcode).bytes then some .invalidAddress else none

/-- Checks (4) to (7). -/
def instrFault (s : State) (i : Instr) : Option FaultCause :=
  if i.registersInRange then (ownFault s i).or (advanceFault s i) else some .invalidRegister

/-- The operand bytes at `pc + 1` and `pc + 2`, once checks (2) and (3) have passed. -/
def operandsAt (s : State) : Width → Operands
  | .one => .none
  | .two => .one ((cellAt s (s.pc.toNat + 1)).getD 0)
  | .three => .two ((cellAt s (s.pc.toNat + 1)).getD 0) ((cellAt s (s.pc.toNat + 2)).getD 0)

/-- Checks (1) to (7) in order: the fault a step in RUNNING reports, if any. -/
def firstFault (s : State) : Option FaultCause :=
  match cellAt s s.pc.toNat with
  | none => some .uninitializedRead
  | some ir =>
    (operandsFault s (widthOf ir)).or (instrFault s (assemble ir (operandsAt s (widthOf ir))))

/-! ## Compares (R60) -/

/-- The two values that a step of this state compares, where it executes a CMP to its end. -/
def executedCmp (s : State) : Option (Byte × Byte) :=
  if s.run = .running ∧ cellAt s s.pc.toNat = some (opcodeOf .cmp) ∧ s.pc.toNat + 3 < 256 then
    match cellAt s (s.pc.toNat + 1), cellAt s (s.pc.toNat + 2) with
    | some a, some b =>
      if h : a.toNat < 8 ∧ b.toNat < 8 then some (getReg s ⟨a.toNat, h.1⟩, getReg s ⟨b.toNat, h.2⟩) else none
    | _, _ => none
  else none

/-! ## What no instruction reads -/

/-- The state without what no instruction reads: the flags register (R14, R15), the latches (R19) and the output trace
(R20). -/
def eraseUnread (s : State) : State :=
  { s with flags := State.reset.flags, latches := State.reset.latches, out := State.reset.out }

/-! ## Unchanged memory -/

/-- Every cell reads as it did (in a next state the frame speaks of). -/
def sameCells (s t : State) : Prop :=
  ∀ addr, cellAt t addr = cellAt s addr

/-- Every cell but the one at `stored` reads as it did. -/
def sameCellsBut (stored : Byte) (s t : State) : Prop :=
  ∀ addr, addr ≠ stored.toNat → cellAt t addr = cellAt s addr

/-- Every register reads as it did, but for those whose index is one of `written`. -/
def sameRegsBut (written : List Nat) (s t : State) : Prop :=
  ∀ r : Fin 8, r.val ∉ written → getReg t r = getReg s r

/-- The fault record and the run state are unchanged, or the fault entry of R74 happened and wrote just those. -/
def sameRunOrFaulted (s t : State) : Prop :=
  (t.run = s.run ∧ t.faultCode = s.faultCode ∧ t.faultPc = s.faultPc) ∨
    ∃ code, t = enterFault code s

/-! ## The invariant -/

/-- Memory is in its canonical form; `FL` is 0 (R15); the fault record is written exactly in FAULTED and there names the
`pc` (R18, R74); HALTED stands one past a HLT byte (R48, R70, R84). -/
def Inv (s : State) : Prop :=
  Memory.wf s.memInit s.mem ∧
  s.flags.fl = 0 ∧
  (s.run = .faulted → s.faultCode ≠ none ∧ s.faultPc = s.pc) ∧
  (s.run ≠ .faulted → s.faultCode = none ∧ s.faultPc = 0) ∧
  (s.run = .halted → 0 < s.pc.toNat ∧ cellAt s (s.pc.toNat - 1) = some (opcodeOf .hlt))

end Sys2Proof.Machine
end

