-- ==== Sys2Proof/Certificates/Slice0/Obligations.lean ====
section
/-! DEFINITION. The statements for the provers, by the order of the spec's files. Every one is about all states, unless it
is about the reset state or a few written-out words. Titles, rules and quotations are in OBLIGATIONS.json. -/

open Sys2Proof Sys2Proof.Machine

/-! ## Reset, boot and ports -/

/-- R12: the reset values of the general registers. -/
def Obligations.ResetRegisterValues : Prop :=
  (∀ r : Fin 8, r.val < 7 → getReg State.reset r = 0) ∧ getReg State.reset 7 = 0xF4

/-- R13, R14, R15, R17, R18, R20: what the rest of the block holds at reset. -/
def Obligations.ResetLeavesTheRestAsStated : Prop :=
  State.reset.pc = 0 ∧ State.reset.flags = { e := false, l := false, g := false, fl := 0 } ∧
  State.reset.run = .running ∧ State.reset.faultCode = none ∧ State.reset.faultPc = 0 ∧ State.reset.out = []

/-- R85, R86: reset from any state, HALTED and FAULTED among them; memory keeps its content. That reset is an operation of
the host and no input of a step is the model's choice (log entry 19). -/
def Obligations.ResetBlockFromAnyState : Prop :=
  ∀ s : State,
    (∀ r : Fin 8, getReg (resetBlock s) r = if r = 7 then 0xF4 else 0) ∧
    (resetBlock s).pc = 0 ∧ (resetBlock s).flags = { e := false, l := false, g := false, fl := 0 } ∧
    (resetBlock s).run = .running ∧ (resetBlock s).faultCode = none ∧ (resetBlock s).faultPc = 0 ∧
    (resetBlock s).out = [] ∧ sameCells s (resetBlock s)

/-- R23, R87: the state at the release of reset after a load, for both values of the open parameter `MEM_INIT` (D6). The
latches, unspecified in the spec, are at the model's reset values (log entry 5). -/
def Obligations.BootPlacesTheImage : Prop :=
  ∀ (mi : MemInit) (image : List Nat), image.length ≤ 256 → (∀ v ∈ image, v < 256) →
    ∃ s, boot mi image = some s ∧
      (∀ (k : Nat) (v : Nat), image[k]? = some v → cellAt s k = some (BitVec.ofNat 8 v)) ∧
      (∀ k : Nat, image.length ≤ k →
        cellAt s k = if k < 256 ∧ (mi = .fullZero ∨ k < 8) then some 0 else none) ∧
      s = { State.reset with memInit := mi, mem := s.mem }

/-- R88: an image that does not fit is refused (the spec's decision D15). -/
def Obligations.BootRefusesWhatDoesNotFit : Prop :=
  ∀ (mi : MemInit) (image : List Nat), (256 < image.length ∨ ∃ v ∈ image, 256 ≤ v) → boot mi image = none

/-- R53, R73: the observation outputs, with the codes of the causes. -/
def Obligations.PortsShowRunFaultAndFlags : Prop :=
  ∀ s : State,
    ((ports s).halted = true ↔ s.run = .halted) ∧ ((ports s).faulted = true ↔ s.run = .faulted) ∧
    ((ports s).faultCode = 0 ↔ s.faultCode = none) ∧
    ((ports s).faultCode = 1 ↔ s.faultCode = some .invalidAddress) ∧
    ((ports s).faultCode = 2 ↔ s.faultCode = some .invalidRegister) ∧
    ((ports s).faultCode = 3 ↔ s.faultCode = some .uninitializedRead) ∧
    (ports s).flagE = s.flags.e ∧ (ports s).flagL = s.flags.l ∧ (ports s).flagG = s.flags.g

/-! ## Memory -/

/-- R25: a written cell reads as the byte written, and every other cell and everything else is as it was. -/
def Obligations.MemWriteSetsOneCell : Prop :=
  ∀ (s : State) (addr v : Byte),
    memRead (memWrite s addr v) addr.toNat = .ok v ∧ sameCellsBut addr s (memWrite s addr v) ∧
    { memWrite s addr v with mem := s.mem } = s

/-! ## Encoding -/

/-- R34: the width. -/
def Obligations.WidthFromTopTwoBits : Prop :=
  ∀ ir : Byte,
    (widthOf ir).bytes = if ir.getLsbD 7 = true then 3 else if ir.getLsbD 6 = true then 2 else 1

/-- R38, R40: the opcode map, and no other byte is in it. Seven of the values are the spec's decision D1 (log entry 7). -/
def Obligations.OpcodeMapIsExact : Prop :=
  ∀ ir : Byte, ∀ op : Op,
    opOf ir = some op ↔
      (ir = 0x82 ∧ op = .ldi) ∨ (ir = 0xA0 ∧ op = .add) ∨ (ir = 0xA2 ∧ op = .mul) ∨ (ir = 0xA7 ∧ op = .cmp) ∨
      (ir = 0x47 ∧ op = .prn) ∨ (ir = 0x45 ∧ op = .push) ∨ (ir = 0x46 ∧ op = .pop) ∨ (ir = 0x50 ∧ op = .call) ∨
      (ir = 0x11 ∧ op = .ret) ∨ (ir = 0x01 ∧ op = .hlt)

/-- R47, R51, R55: the class and the ALU selector are functions of the opcode byte (values by the spec's decisions D1 and
D11). -/
def Obligations.DecoderClassAndSelector : Prop :=
  ∀ ir : Byte,
    (classOf ir = .controlTransfer ↔ ir = 0x50 ∨ ir = 0x11) ∧
    aluSelectorOf ir =
      if ir = 0xA0 then some 0b00 else if ir = 0xA2 then some 0b01 else if ir = 0xA7 then some 0b10 else none

/-- A sanity check on words written out from R33 and R38: one of every row of the opcode table, and of each width an
unrecognized one. Seven of the opcode values are the spec's decision D1 (log entry 7). -/
def Obligations.WordsOfTheTableDecode : Prop :=
  decode [0b10000010, 0b00000000, 0b00101000] = .ok (.ldi 0 40, []) ∧
  decode [0b10100000, 0b00000010, 0b00000101] = .ok (.add 2 5, []) ∧
  decode [0b10100010, 0b00000111, 0b00000001] = .ok (.mul 7 1, []) ∧
  decode [0b10100111, 0b00000011, 0b00000100] = .ok (.cmp 3 4, []) ∧
  decode [0b01000111, 0b00000110] = .ok (.prn 6, []) ∧
  decode [0b01000101, 0b00000011] = .ok (.push 3, []) ∧
  decode [0b01000110, 0b00000001] = .ok (.pop 1, []) ∧
  decode [0b01010000, 0b00000010] = .ok (.call 2, []) ∧
  decode [0b00010001] = .ok (.ret, []) ∧
  decode [0b00000001] = .ok (.hlt, []) ∧
  decode [0b00000000] = .ok (.unrecognized 0 .none, []) ∧
  decode [0b01000000, 0b11111111] = .ok (.unrecognized 0x40 (.one 0xFF), []) ∧
  decode [0b11000000, 0b00001001, 0b00001000] = .ok (.unrecognized 0xC0 (.two 9 8), [])

/-- R33, R36, R38, R40: decoding an encoded instruction gives it back, with whatever follows it. -/
def Obligations.DecodeUndoesEncode : Prop :=
  ∀ (i : Instr) (rest : List Byte), i.wellFormed = true → decode (encode i ++ rest) = .ok (i, rest)

/-- R33, R34, R40: what decodes is the encoding of a well-formed instruction, so every byte sequence has one meaning. -/
def Obligations.EncodeUndoesDecode : Prop :=
  ∀ (bytes rest : List Byte) (i : Instr),
    decode bytes = .ok (i, rest) → i.wellFormed = true ∧ encode i ++ rest = bytes

/-- R40: there is no illegal instruction; three bytes always decode, and the width alone says how many are used. -/
def Obligations.EveryByteDecodes : Prop :=
  ∀ (ir a b : Byte) (rest : List Byte),
    ∃ (i : Instr) (left : List Byte),
      decode (ir :: a :: b :: rest) = .ok (i, left) ∧ left = (ir :: a :: b :: rest).drop (widthOf ir).bytes

/-! ## The step -/

/-- R43, R47: a step in RUNNING is exec of the instruction at `pc`, and then the latches hold what was fetched; after a
fault they are as they were (the model's choice, log entry 6). -/
def Obligations.StepRunsDecodedInstruction : Prop :=
  ∀ (s : State) (f : Fetched) (i : Instr), s.run = .running →
    decode (fetchedBytes f) = .ok (i, []) → holdsBytes s s.pc.toNat (fetchedBytes f) →
    step s = latchOutcome f (exec i s) ∧
    (∀ t, exec i s = .next t → t.run ≠ .faulted →
      step s = .next { t with latches := latchFetched f t.latches }) ∧
    (∀ t, exec i s = .next t → t.run = .faulted → step s = .next t)

/-- R44, R45, R75 (1) to (3): the faults of fetch and operand fetch, each before any later check (the spec's decisions D4,
D6, D27). -/
def Obligations.FetchAndOperandFaults : Prop :=
  ∀ s : State, s.run = .running →
    (cellAt s s.pc.toNat = none → step s = .next (enterFault .uninitializedRead s)) ∧
    ∀ ir : Byte, cellAt s s.pc.toNat = some ir →
      (widthOf ir ≠ .one → 256 ≤ s.pc.toNat + 1 → step s = .next (enterFault .invalidAddress s)) ∧
      (widthOf ir ≠ .one → s.pc.toNat + 1 < 256 → cellAt s (s.pc.toNat + 1) = none →
        step s = .next (enterFault .uninitializedRead s)) ∧
      (∀ a, widthOf ir = .three → s.pc.toNat + 1 < 256 → cellAt s (s.pc.toNat + 1) = some a →
        256 ≤ s.pc.toNat + 2 → step s = .next (enterFault .invalidAddress s)) ∧
      (∀ a, widthOf ir = .three → cellAt s (s.pc.toNat + 1) = some a →
        s.pc.toNat + 2 < 256 → cellAt s (s.pc.toNat + 2) = none →
        step s = .next (enterFault .uninitializedRead s))

/-- R75: the fault a step reports is that of the first failing check, and it faults only if one fails. The order is the
spec's decision D27. -/
def Obligations.FirstFailingCheckDecides : Prop :=
  ∀ s : State, s.run = .running →
    (∀ code, firstFault s = some code → step s = .next (enterFault code s)) ∧
    (firstFault s = none → ∃ t, step s = .next t ∧ t.run ≠ .faulted ∧ t.faultCode = s.faultCode)

/-- R49, R74: a step that faults changes the run state and the fault record and nothing else (the spec's decision D13). That
the latches are among what stays is the model's reading (log entry 6). -/
def Obligations.FaultingStepIsAtomic : Prop :=
  ∀ s t : State, s.run = .running → step s = .next t → t.run = .faulted →
    ∃ code : FaultCause, t = { s with run := .faulted, faultCode := some code, faultPc := s.pc }

/-- R50: in RUNNING there is always a step. No state stops the model by a fault outcome or a refusal; that a faulting step is
a next state, and that the other run states answer themselves, is the model's reading (log entries 1 and 2). -/
def Obligations.StepAlwaysAnswersNext : Prop :=
  ∀ s : State, ∃ t, step s = .next t

/-- R17, R84: HALTED and FAULTED are terminal. That the model then stays as it is, is its reading (log entry 2). -/
def Obligations.TerminalStatesStay : Prop :=
  ∀ s : State, s.run ≠ .running → step s = .next s ∧ ∀ n : Nat, stateAfter n s = s

/-- R48: a Sequential step that completes moves `pc` by the width, without wrapping (the spec's decision D3). -/
def Obligations.SequentialStepAdvancesByWidth : Prop :=
  ∀ (s t : State) (ir : Byte), s.run = .running → cellAt s s.pc.toNat = some ir →
    ir ≠ opcodeOf .call → ir ≠ opcodeOf .ret → step s = .next t → t.run ≠ .faulted →
    t.pc.toNat = s.pc.toNat + (widthOf ir).bytes

/-! ## ALU instructions -/

/-- R54, R55: the ALU's outputs for every selector, and what the write enable and the strobes do: a set strobe makes its flag
true and no output clears one. The selector codes are the spec's decision D11 (log entry 16); the direction of CMP and its
unsigned reading are the spec's decision D8 (log entry 8). -/
def Obligations.AluOutputs : Prop :=
  (∀ (dest : Fin 8) (y : AluOut) (s : State),
    (∀ r : Fin 8, getReg (applyAlu dest y s) r = if y.we = true ∧ r = dest then y.y else getReg s r) ∧
    ((applyAlu dest y s).flags.e = true ↔ s.flags.e = true ∨ y.setE = true) ∧
    ((applyAlu dest y s).flags.l = true ↔ s.flags.l = true ∨ y.setL = true) ∧
    ((applyAlu dest y s).flags.g = true ↔ s.flags.g = true ∨ y.setG = true)) ∧
  ∀ (op : BitVec 2) (a b : Byte),
    alu op a b =
      if op = 0b00 then
        { y := BitVec.ofNat 8 ((a.toNat + b.toNat) % 256), we := true, setE := false, setL := false, setG := false, err := false }
      else if op = 0b01 then
        { y := BitVec.ofNat 8 ((a.toNat * b.toNat) % 256), we := true, setE := false, setL := false, setG := false, err := false }
      else if op = 0b10 then
        { y := 0, we := false, setE := decide (a.toNat = b.toNat), setL := decide (a.toNat < b.toNat),
          setG := decide (a.toNat > b.toNat), err := false }
      else { y := 0, we := false, setE := false, setL := false, setG := false, err := true }

/-- R55, R78: the unsupported selector changes no state (its code 11 is the spec's decision D11). -/
def Obligations.UnsupportedSelectorChangesNothing : Prop :=
  ∀ (dest : Fin 8) (a b : Byte) (s : State), applyAlu dest (alu 0b11 a b) s = s

/-- R56: sum and product wrap modulo 256, and are the same whether the inputs are read as signed or unsigned. -/
def Obligations.AluWrapsForEitherSign : Prop :=
  ∀ a b : Byte,
    (alu aluAdd a b).y.toNat = (a.toNat + b.toNat) % 256 ∧
    (alu aluMul a b).y.toNat = (a.toNat * b.toNat) % 256 ∧
    (alu aluMul a b).y = BitVec.ofInt 8 (a.toInt * b.toInt)

/-- R57: ADD where it completes. The old values of both registers are added, also where they are one register. -/
def Obligations.AddResult : Prop :=
  ∀ (s : State) (a b : Byte) (ra rb : Fin 8), a.toNat = ra.val → b.toNat = rb.val → s.pc.toNat + 3 < 256 →
    exec (.add a b) s =
      .next { setReg s ra (BitVec.ofNat 8 (((getReg s ra).toNat + (getReg s rb).toNat) % 256)) with pc := s.pc + 3 }

/-- R58: MUL where it completes. -/
def Obligations.MulResult : Prop :=
  ∀ (s : State) (a b : Byte) (ra rb : Fin 8), a.toNat = ra.val → b.toNat = rb.val → s.pc.toNat + 3 < 256 →
    exec (.mul a b) s =
      .next { setReg s ra (BitVec.ofNat 8 (((getReg s ra).toNat * (getReg s rb).toNat) % 256)) with pc := s.pc + 3 }

/-- R59: CMP where it completes: one flag is set, the others are left as they were. The direction and the unsigned comparison
are the spec's decision D8 (log entry 8). -/
def Obligations.CmpResult : Prop :=
  ∀ (s : State) (a b : Byte) (ra rb : Fin 8), a.toNat = ra.val → b.toNat = rb.val → s.pc.toNat + 3 < 256 →
    exec (.cmp a b) s =
      .next
        { s with
          pc := s.pc + 3
          flags :=
            if (getReg s ra).toNat = (getReg s rb).toNat then { s.flags with e := true }
            else if (getReg s ra).toNat < (getReg s rb).toNat then { s.flags with l := true }
            else { s.flags with g := true } }

/-- R60: a condition flag is true exactly when it was true at the start or some CMP of the run found its relation; from
reset, where all are false, exactly when some CMP did. -/
def Obligations.FlagsRecordEveryCompare : Prop :=
  (∀ s : State, (resetBlock s).flags = { e := false, l := false, g := false, fl := 0 }) ∧
  ∀ (n : Nat) (s : State),
    ((stateAfter n s).flags.e = true ↔
      s.flags.e = true ∨ ∃ k x y, k < n ∧ executedCmp (stateAfter k s) = some (x, y) ∧ x.toNat = y.toNat) ∧
    ((stateAfter n s).flags.l = true ↔
      s.flags.l = true ∨ ∃ k x y, k < n ∧ executedCmp (stateAfter k s) = some (x, y) ∧ x.toNat < y.toNat) ∧
    ((stateAfter n s).flags.g = true ↔
      s.flags.g = true ∨ ∃ k x y, k < n ∧ executedCmp (stateAfter k s) = some (x, y) ∧ y.toNat < x.toNat)

/-! ## Load and output -/

/-- R61: LDI where it completes; the immediate may be any byte. -/
def Obligations.LdiResult : Prop :=
  ∀ (s : State) (a imm : Byte) (ra : Fin 8), a.toNat = ra.val → s.pc.toNat + 3 < 256 →
    exec (.ldi a imm) s = .next { setReg s ra imm with pc := s.pc + 3 }

/-- R62: PRN where it completes. -/
def Obligations.PrnResult : Prop :=
  ∀ (s : State) (a : Byte) (ra : Fin 8), a.toNat = ra.val → s.pc.toNat + 2 < 256 →
    exec (.prn a) s = .next { s with pc := s.pc + 2, out := s.out ++ [getReg s ra] }

/-- R20: the output trace grows by PRN alone, by one byte, a register's value. -/
def Obligations.OutputGrowsByPrnAlone : Prop :=
  ∀ s t : State, step s = .next t →
    t.out = s.out ∨ (currentOpcode s = some (opcodeOf .prn) ∧ ∃ r : Fin 8, t.out = s.out ++ [getReg s r])

/-! ## Stack -/

/-- R65: PUSH where it completes. Where the register is R7 the byte stored is the new SP (the spec's decision D19, log entry
10). -/
def Obligations.PushResult : Prop :=
  ∀ (s : State) (a : Byte) (ra : Fin 8), a.toNat = ra.val → s.pc.toNat + 2 < 256 →
    exec (.push a) s =
      .next
        { memWrite (setReg s 7 (getReg s 7 - 1)) (getReg s 7 - 1)
            (if ra = 7 then getReg s 7 - 1 else getReg s ra) with pc := s.pc + 2 }

/-- R66: POP where it completes. Where the register is R7 it ends one above the byte popped (the spec's decision D19, log
entry 10). -/
def Obligations.PopResult : Prop :=
  ∀ (s : State) (a v : Byte) (ra : Fin 8), a.toNat = ra.val → cellAt s (getReg s 7).toNat = some v →
    s.pc.toNat + 2 < 256 →
    exec (.pop a) s =
      .next { setReg (setReg s ra v) 7 (if ra = 7 then v + 1 else getReg s 7 + 1) with pc := s.pc + 2 }

/-- R64: the stack pointer wraps (the spec's decision D7): a decrement of 0 gives 255 and an increment of 255 gives 0. -/
def Obligations.StackPointerWraps : Prop :=
  ∀ s : State,
    (getReg (decSp s) 7).toNat = ((getReg s 7).toNat + 255) % 256 ∧
    (getReg (incSp s) 7).toNat = ((getReg s 7).toNat + 1) % 256 ∧
    sameRegsBut [7] s (decSp s) ∧ sameRegsBut [7] s (incSp s)

/-- R67: PUSH and then POP of the same register, R7 among them, restores every register. -/
def Obligations.PushThenPopRestores : Prop :=
  ∀ (s : State) (a : Byte), a.toNat < 8 → s.pc.toNat + 4 < 256 →
    ∃ t u, exec (.push a) s = .next t ∧ getReg t 7 = getReg s 7 - 1 ∧ exec (.pop a) t = .next u ∧
      u.regs = s.regs ∧ u.pc = s.pc + 4

/-- R67: PUSH of one register and then POP of another copies it, where neither is the stack pointer; the popped cell keeps
the value. R67 says so without the condition; its own R65 and R66 need it (log entry 20). -/
def Obligations.PushThenPopCopies : Prop :=
  ∀ (s : State) (a b : Byte) (ra rb : Fin 8), a.toNat = ra.val → b.toNat = rb.val → ra ≠ 7 → rb ≠ 7 →
    s.pc.toNat + 4 < 256 →
    ∃ t u, exec (.push a) s = .next t ∧ exec (.pop b) t = .next u ∧
      getReg u rb = getReg s ra ∧ getReg u 7 = getReg s 7 ∧ sameRegsBut [rb.val] s u ∧
      cellAt u (getReg s 7 - 1).toNat = some (getReg s ra)

/-- R32, R92: a byte that PUSH stores where the next instruction begins is the next opcode byte. -/
def Obligations.PushedByteIsFetchedNext : Prop :=
  ∀ (s : State) (a : Byte) (ra : Fin 8), s.run = .running → a.toNat = ra.val → s.pc.toNat + 2 < 256 →
    getReg s 7 = s.pc + 3 → ra ≠ 7 →
    ∃ t, exec (.push a) s = .next t ∧ currentOpcode t = some (getReg s ra)

/-! ## Control transfer and halt -/

/-- R68: CALL where it completes. The return address is that of the next instruction (D9, C1, log entry 9); where the register
is R7 the target is the new SP (D19, log entry 10). -/
def Obligations.CallResult : Prop :=
  ∀ (s : State) (a : Byte) (ra : Fin 8), a.toNat = ra.val → s.pc.toNat + 2 < 256 →
    exec (.call a) s =
      .next
        { memWrite (setReg s 7 (getReg s 7 - 1)) (getReg s 7 - 1) (s.pc + 2) with
          pc := if ra = 7 then getReg s 7 - 1 else getReg s ra }

/-- R69: RET where it completes, also at address 255: nothing follows it. -/
def Obligations.RetResult : Prop :=
  ∀ (s : State) (v : Byte), cellAt s (getReg s 7).toNat = some v →
    exec .ret s = .next { setReg s 7 (getReg s 7 + 1) with pc := v }

/-- R70: HLT where it completes: `pc` advances and the run state is HALTED. -/
def Obligations.HltResult : Prop :=
  ∀ s : State, s.pc.toNat + 1 < 256 → exec .hlt s = .next { s with pc := s.pc + 1, run := .halted }

/-- R71: an unrecognized opcode where it completes; its operand bytes may be any (the spec's decision D26). -/
def Obligations.UnrecognizedResult : Prop :=
  ∀ (s : State) (ir : Byte) (ops : Operands), s.pc.toNat + (widthOf ir).bytes < 256 →
    exec (.unrecognized ir ops) s = .next { s with pc := s.pc + BitVec.ofNat 8 (widthOf ir).bytes }

/-- R72: CALL and then RET returns to the instruction after the CALL, with every register as it was. -/
def Obligations.CallThenRetReturns : Prop :=
  ∀ (s : State) (a : Byte), a.toNat < 8 → s.pc.toNat + 2 < 256 →
    ∃ t u, exec (.call a) s = .next t ∧ exec .ret t = .next u ∧ u.pc.toNat = s.pc.toNat + 2 ∧ u.regs = s.regs

/-- R84: HALTED is entered by HLT alone. -/
def Obligations.OnlyHltHalts : Prop :=
  ∀ s t : State, step s = .next t → t.run = .halted → s.run ≠ .halted →
    currentOpcode s = some (opcodeOf .hlt) ∧ t.pc = s.pc + 1

/-! ## Faults of the instructions -/

/-- R46: a register index of 8..255 in any register operand, at whatever `pc` (the spec's decision D5). -/
def Obligations.OutOfRangeRegisterTraps : Prop :=
  ∀ (s : State) (a b : Byte),
    (8 ≤ a.toNat →
      exec (.ldi a b) s = .next (enterFault .invalidRegister s) ∧
      exec (.prn a) s = .next (enterFault .invalidRegister s) ∧
      exec (.push a) s = .next (enterFault .invalidRegister s) ∧
      exec (.pop a) s = .next (enterFault .invalidRegister s) ∧
      exec (.call a) s = .next (enterFault .invalidRegister s)) ∧
    (8 ≤ a.toNat ∨ 8 ≤ b.toNat →
      exec (.add a b) s = .next (enterFault .invalidRegister s) ∧
      exec (.mul a b) s = .next (enterFault .invalidRegister s) ∧
      exec (.cmp a b) s = .next (enterFault .invalidRegister s))

/-- R48, R75 (7): an advance to 256 or more, once every other check has passed (the spec's decisions D3 and D27). -/
def Obligations.AdvancePastTheTopTraps : Prop :=
  ∀ (s : State) (a b imm : Byte), a.toNat < 8 → b.toNat < 8 →
    (256 ≤ s.pc.toNat + 3 →
      exec (.ldi a imm) s = .next (enterFault .invalidAddress s) ∧
      exec (.add a b) s = .next (enterFault .invalidAddress s) ∧
      exec (.mul a b) s = .next (enterFault .invalidAddress s) ∧
      exec (.cmp a b) s = .next (enterFault .invalidAddress s)) ∧
    (256 ≤ s.pc.toNat + 2 →
      exec (.prn a) s = .next (enterFault .invalidAddress s) ∧
      exec (.push a) s = .next (enterFault .invalidAddress s) ∧
      (cellAt s (getReg s 7).toNat ≠ none → exec (.pop a) s = .next (enterFault .invalidAddress s))) ∧
    (256 ≤ s.pc.toNat + 1 → exec .hlt s = .next (enterFault .invalidAddress s)) ∧
    (∀ (ir : Byte) (ops : Operands), 256 ≤ s.pc.toNat + (widthOf ir).bytes →
      exec (.unrecognized ir ops) s = .next (enterFault .invalidAddress s))

/-- R66, R68, R69, R75 (6): the instructions' own checks (the spec's decisions D3 and D6). -/
def Obligations.StackAndReturnAddressTraps : Prop :=
  ∀ (s : State) (a : Byte), a.toNat < 8 →
    (256 ≤ s.pc.toNat + 2 → exec (.call a) s = .next (enterFault .invalidAddress s)) ∧
    (cellAt s (getReg s 7).toNat = none →
      exec (.pop a) s = .next (enterFault .uninitializedRead s) ∧
      exec .ret s = .next (enterFault .uninitializedRead s))

/-! ## Frames -/

/-- LDI, ADD, MUL change no register but their destination, no flag, no memory, no output (R10, R14, R22). -/
def Obligations.LoadAndArithmeticFrame : Prop :=
  ∀ (s t : State) (a b : Byte),
    exec (.ldi a b) s = .next t ∨ exec (.add a b) s = .next t ∨ exec (.mul a b) s = .next t →
    sameRegsBut [a.toNat] s t ∧ t.flags = s.flags ∧ t.latches = s.latches ∧ t.out = s.out ∧
    t.memInit = s.memInit ∧ sameCells s t ∧ sameRunOrFaulted s t

/-- CMP changes E, L, G and `pc` alone; `FL` and every register stay (R10, R14, R15). -/
def Obligations.CompareFrame : Prop :=
  ∀ (s t : State) (a b : Byte), exec (.cmp a b) s = .next t →
    sameRegsBut [] s t ∧ t.flags.fl = s.flags.fl ∧ t.latches = s.latches ∧ t.out = s.out ∧
    t.memInit = s.memInit ∧ sameCells s t ∧ sameRunOrFaulted s t

/-- PRN and an unrecognized opcode change no register, flag or memory; the second changes no output either (R10, R71). -/
def Obligations.OutputAndNoOpFrame : Prop :=
  ∀ (s t : State) (a ir : Byte) (ops : Operands),
    exec (.prn a) s = .next t ∨ exec (.unrecognized ir ops) s = .next t →
    sameRegsBut [] s t ∧ t.flags = s.flags ∧ t.latches = s.latches ∧ t.memInit = s.memInit ∧
    sameCells s t ∧ sameRunOrFaulted s t ∧ (exec (.unrecognized ir ops) s = .next t → t.out = s.out)

/-- PUSH and CALL change no register but R7 and no cell but the one at the decremented SP (R10, R22). -/
def Obligations.PushAndCallFrame : Prop :=
  ∀ (s t : State) (a : Byte), exec (.push a) s = .next t ∨ exec (.call a) s = .next t →
    sameRegsBut [7] s t ∧ t.flags = s.flags ∧ t.latches = s.latches ∧ t.out = s.out ∧
    t.memInit = s.memInit ∧ sameCellsBut (sp (decSp s)) s t ∧ sameRunOrFaulted s t

/-- POP changes no register but its destination and R7, RET none but R7, and neither any memory (R10, R22). -/
def Obligations.PopAndRetFrame : Prop :=
  ∀ (s t : State) (a : Byte), exec (.pop a) s = .next t ∨ exec .ret s = .next t →
    sameRegsBut [a.toNat, 7] s t ∧ (exec .ret s = .next t → sameRegsBut [7] s t) ∧ t.flags = s.flags ∧
    t.latches = s.latches ∧ t.out = s.out ∧ t.memInit = s.memInit ∧ sameCells s t ∧ sameRunOrFaulted s t

/-- HLT changes the run state and `pc` alone, or faults (R70). -/
def Obligations.HaltFrame : Prop :=
  ∀ s t : State, exec .hlt s = .next t →
    sameRegsBut [] s t ∧ t.flags = s.flags ∧ t.latches = s.latches ∧ t.out = s.out ∧
    t.memInit = s.memInit ∧ sameCells s t ∧
    ((t.run = .halted ∧ t.faultCode = s.faultCode ∧ t.faultPc = s.faultPc) ∨ t = enterFault .invalidAddress s)

/-! ## Rules of the whole machine -/

/-- R14, R15: the flags register is written by CMP alone, which clears no flag; `FL` is never written. -/
def Obligations.FlagsAreSetByCmpAlone : Prop :=
  ∀ s t : State, step s = .next t →
    (t.flags ≠ s.flags → currentOpcode s = some (opcodeOf .cmp)) ∧
    (s.flags.e = true → t.flags.e = true) ∧ (s.flags.l = true → t.flags.l = true) ∧
    (s.flags.g = true → t.flags.g = true) ∧ t.flags.fl = s.flags.fl

/-- R22, R25: a step changes memory by PUSH or CALL alone, at the decremented SP alone, and a cell that holds a value goes
on holding one. -/
def Obligations.MemoryIsWrittenByPushAndCallAlone : Prop :=
  ∀ s t : State, step s = .next t → ∀ addr : Nat,
    (cellAt t addr ≠ cellAt s addr →
      (currentOpcode s = some (opcodeOf .push) ∨ currentOpcode s = some (opcodeOf .call)) ∧
      addr = (getReg s 7 - 1).toNat) ∧
    (cellAt s addr ≠ none → cellAt t addr ≠ none) ∧ t.memInit = s.memInit

/-- R14, R15, R19, R20: the flags, `FL`, the latches and the output trace influence nothing else: states that differ only
there step to states that differ only there. -/
def Obligations.UnreadStateHasNoInfluence : Prop :=
  ∀ s t : State, eraseUnread s = eraseUnread t →
    ∃ s' t', step s = .next s' ∧ step t = .next t' ∧ eraseUnread s' = eraseUnread t'

/-- The invariant of the machine holds at reset. Its part on memory is about the model's own form of memory. -/
def Obligations.ResetMeetsInv : Prop :=
  Inv State.reset

/-- Every step keeps the invariant (R15, R18, R48, R70, R74). Its part on memory is about the model's own form of memory. -/
def Obligations.EveryStepKeepsInv : Prop :=
  ∀ s t : State, Inv s → step s = .next t → Inv t
end

