-- ==== Sys2Proof/Laws/Decode.lean ====
section
/-! SUPPORT. The small lemmas of the opcode table and of decoding. -/

namespace Sys2Proof

/-- No two rows of the opcode table share a byte (R38). -/
theorem opcodeTable_bytes_distinct : (opcodeTable.map Prod.fst).Pairwise (· ≠ ·) := by
  decide

/-- The table gives each opcode's byte back its opcode. -/
@[simp] theorem opOf_opcodeOf (op : Op) : opOf (opcodeOf op) = some op := by
  cases op <;> decide

/-- A byte that the table assigns is that opcode's byte. -/
theorem opcodeOf_of_opOf {ir : Byte} {op : Op} (h : opOf ir = some op) : ir = opcodeOf op := by
  unfold opOf at h
  cases hf : opcodeTable.find? (fun row => row.1 == ir) with
  | none => simp [hf] at h
  | some row =>
    have hmem := List.mem_of_find?_eq_some hf
    have hbyte : row.1 = ir := by simpa using List.find?_some hf
    have hop : row.2 = op := by simpa [hf] using h
    obtain ⟨o, -, rfl⟩ := List.mem_map.mp hmem
    subst hop; exact hbyte.symm

/-! ## The widths of the assigned bytes (R38) -/

@[simp] theorem widthOf_ldi : widthOf (opcodeOf .ldi) = .three := by decide

@[simp] theorem widthOf_add : widthOf (opcodeOf .add) = .three := by decide

@[simp] theorem widthOf_mul : widthOf (opcodeOf .mul) = .three := by decide

@[simp] theorem widthOf_cmp : widthOf (opcodeOf .cmp) = .three := by decide

@[simp] theorem widthOf_prn : widthOf (opcodeOf .prn) = .two := by decide

@[simp] theorem widthOf_push : widthOf (opcodeOf .push) = .two := by decide

@[simp] theorem widthOf_pop : widthOf (opcodeOf .pop) = .two := by decide

@[simp] theorem widthOf_call : widthOf (opcodeOf .call) = .two := by decide

@[simp] theorem widthOf_ret : widthOf (opcodeOf .ret) = .one := by decide

@[simp] theorem widthOf_hlt : widthOf (opcodeOf .hlt) = .one := by decide

/-- An opcode's width is that of its operand count (R39). -/
theorem assembleOp_width (op : Op) (ops : Operands) (h : widthOf (opcodeOf op) = ops.width) :
    (assembleOp op ops).isSome = true := by
  cases op <;> cases ops <;> first | rfl | simp [Operands.width] at h

/-- Taking operands gives as many as the width asks for. -/
theorem takeOperands_toList (w : Width) (ops : Operands) (rest : List Byte) (h : ops.width = w) :
    takeOperands w (ops.toList ++ rest) = .ok (ops, rest) := by
  subst h; cases ops <;> rfl

theorem takeOperands_ok {w : Width} {bytes rest : List Byte} {ops : Operands}
    (h : takeOperands w bytes = .ok (ops, rest)) : ops.width = w ∧ ops.toList ++ rest = bytes := by
  unfold takeOperands at h
  split at h <;> cases h <;> exact ⟨rfl, rfl⟩

end Sys2Proof
end

