-- ==== Sys2Proof/Laws/State.lean ====
section
/-! SUPPORT. One lemma per field of State per update operation: what the operation leaves in that field. -/

namespace Sys2Proof.Machine

/-! ## setReg -/

@[simp] theorem setReg_regs (s : State) (r : Fin 8) (v : Byte) :
    (setReg s r v).regs = s.regs.set r.val v r.isLt := rfl

@[simp] theorem setReg_pc (s : State) (r : Fin 8) (v : Byte) :
    (setReg s r v).pc = s.pc := rfl

@[simp] theorem setReg_flags (s : State) (r : Fin 8) (v : Byte) :
    (setReg s r v).flags = s.flags := rfl

@[simp] theorem setReg_run (s : State) (r : Fin 8) (v : Byte) :
    (setReg s r v).run = s.run := rfl

@[simp] theorem setReg_faultCode (s : State) (r : Fin 8) (v : Byte) :
    (setReg s r v).faultCode = s.faultCode := rfl

@[simp] theorem setReg_faultPc (s : State) (r : Fin 8) (v : Byte) :
    (setReg s r v).faultPc = s.faultPc := rfl

@[simp] theorem setReg_latches (s : State) (r : Fin 8) (v : Byte) :
    (setReg s r v).latches = s.latches := rfl

@[simp] theorem setReg_out (s : State) (r : Fin 8) (v : Byte) :
    (setReg s r v).out = s.out := rfl

@[simp] theorem setReg_memInit (s : State) (r : Fin 8) (v : Byte) :
    (setReg s r v).memInit = s.memInit := rfl

@[simp] theorem setReg_mem (s : State) (r : Fin 8) (v : Byte) :
    (setReg s r v).mem = s.mem := rfl

/-! ## setPc -/

@[simp] theorem setPc_regs (s : State) (target : Byte) :
    (setPc s target).regs = s.regs := rfl

@[simp] theorem setPc_pc (s : State) (target : Byte) :
    (setPc s target).pc = target := rfl

@[simp] theorem setPc_flags (s : State) (target : Byte) :
    (setPc s target).flags = s.flags := rfl

@[simp] theorem setPc_run (s : State) (target : Byte) :
    (setPc s target).run = s.run := rfl

@[simp] theorem setPc_faultCode (s : State) (target : Byte) :
    (setPc s target).faultCode = s.faultCode := rfl

@[simp] theorem setPc_faultPc (s : State) (target : Byte) :
    (setPc s target).faultPc = s.faultPc := rfl

@[simp] theorem setPc_latches (s : State) (target : Byte) :
    (setPc s target).latches = s.latches := rfl

@[simp] theorem setPc_out (s : State) (target : Byte) :
    (setPc s target).out = s.out := rfl

@[simp] theorem setPc_memInit (s : State) (target : Byte) :
    (setPc s target).memInit = s.memInit := rfl

@[simp] theorem setPc_mem (s : State) (target : Byte) :
    (setPc s target).mem = s.mem := rfl

/-! ## memWrite -/

@[simp] theorem memWrite_regs (s : State) (addr v : Byte) :
    (memWrite s addr v).regs = s.regs := rfl

@[simp] theorem memWrite_pc (s : State) (addr v : Byte) :
    (memWrite s addr v).pc = s.pc := rfl

@[simp] theorem memWrite_flags (s : State) (addr v : Byte) :
    (memWrite s addr v).flags = s.flags := rfl

@[simp] theorem memWrite_run (s : State) (addr v : Byte) :
    (memWrite s addr v).run = s.run := rfl

@[simp] theorem memWrite_faultCode (s : State) (addr v : Byte) :
    (memWrite s addr v).faultCode = s.faultCode := rfl

@[simp] theorem memWrite_faultPc (s : State) (addr v : Byte) :
    (memWrite s addr v).faultPc = s.faultPc := rfl

@[simp] theorem memWrite_latches (s : State) (addr v : Byte) :
    (memWrite s addr v).latches = s.latches := rfl

@[simp] theorem memWrite_out (s : State) (addr v : Byte) :
    (memWrite s addr v).out = s.out := rfl

@[simp] theorem memWrite_memInit (s : State) (addr v : Byte) :
    (memWrite s addr v).memInit = s.memInit := rfl

@[simp] theorem memWrite_mem (s : State) (addr v : Byte) :
    (memWrite s addr v).mem = Memory.write s.memInit addr.toNat v s.mem := rfl

/-! ## emit -/

@[simp] theorem emit_regs (s : State) (v : Byte) :
    (emit s v).regs = s.regs := rfl

@[simp] theorem emit_pc (s : State) (v : Byte) :
    (emit s v).pc = s.pc := rfl

@[simp] theorem emit_flags (s : State) (v : Byte) :
    (emit s v).flags = s.flags := rfl

@[simp] theorem emit_run (s : State) (v : Byte) :
    (emit s v).run = s.run := rfl

@[simp] theorem emit_faultCode (s : State) (v : Byte) :
    (emit s v).faultCode = s.faultCode := rfl

@[simp] theorem emit_faultPc (s : State) (v : Byte) :
    (emit s v).faultPc = s.faultPc := rfl

@[simp] theorem emit_latches (s : State) (v : Byte) :
    (emit s v).latches = s.latches := rfl

@[simp] theorem emit_out (s : State) (v : Byte) :
    (emit s v).out = s.out ++ [v] := rfl

@[simp] theorem emit_memInit (s : State) (v : Byte) :
    (emit s v).memInit = s.memInit := rfl

@[simp] theorem emit_mem (s : State) (v : Byte) :
    (emit s v).mem = s.mem := rfl

/-! ## halt -/

@[simp] theorem halt_regs (s : State) :
    (halt s).regs = s.regs := rfl

@[simp] theorem halt_pc (s : State) :
    (halt s).pc = s.pc := rfl

@[simp] theorem halt_flags (s : State) :
    (halt s).flags = s.flags := rfl

@[simp] theorem halt_run (s : State) :
    (halt s).run = .halted := rfl

@[simp] theorem halt_faultCode (s : State) :
    (halt s).faultCode = s.faultCode := rfl

@[simp] theorem halt_faultPc (s : State) :
    (halt s).faultPc = s.faultPc := rfl

@[simp] theorem halt_latches (s : State) :
    (halt s).latches = s.latches := rfl

@[simp] theorem halt_out (s : State) :
    (halt s).out = s.out := rfl

@[simp] theorem halt_memInit (s : State) :
    (halt s).memInit = s.memInit := rfl

@[simp] theorem halt_mem (s : State) :
    (halt s).mem = s.mem := rfl

/-! ## enterFault -/

@[simp] theorem enterFault_regs (code : FaultCause) (s : State) :
    (enterFault code s).regs = s.regs := rfl

@[simp] theorem enterFault_pc (code : FaultCause) (s : State) :
    (enterFault code s).pc = s.pc := rfl

@[simp] theorem enterFault_flags (code : FaultCause) (s : State) :
    (enterFault code s).flags = s.flags := rfl

@[simp] theorem enterFault_run (code : FaultCause) (s : State) :
    (enterFault code s).run = .faulted := rfl

@[simp] theorem enterFault_faultCode (code : FaultCause) (s : State) :
    (enterFault code s).faultCode = some code := rfl

@[simp] theorem enterFault_faultPc (code : FaultCause) (s : State) :
    (enterFault code s).faultPc = s.pc := rfl

@[simp] theorem enterFault_latches (code : FaultCause) (s : State) :
    (enterFault code s).latches = s.latches := rfl

@[simp] theorem enterFault_out (code : FaultCause) (s : State) :
    (enterFault code s).out = s.out := rfl

@[simp] theorem enterFault_memInit (code : FaultCause) (s : State) :
    (enterFault code s).memInit = s.memInit := rfl

@[simp] theorem enterFault_mem (code : FaultCause) (s : State) :
    (enterFault code s).mem = s.mem := rfl

/-! ## decSp -/

@[simp] theorem decSp_regs (s : State) :
    (decSp s).regs = s.regs.set spReg.val (sp s - 1) spReg.isLt := rfl

@[simp] theorem decSp_pc (s : State) :
    (decSp s).pc = s.pc := rfl

@[simp] theorem decSp_flags (s : State) :
    (decSp s).flags = s.flags := rfl

@[simp] theorem decSp_run (s : State) :
    (decSp s).run = s.run := rfl

@[simp] theorem decSp_faultCode (s : State) :
    (decSp s).faultCode = s.faultCode := rfl

@[simp] theorem decSp_faultPc (s : State) :
    (decSp s).faultPc = s.faultPc := rfl

@[simp] theorem decSp_latches (s : State) :
    (decSp s).latches = s.latches := rfl

@[simp] theorem decSp_out (s : State) :
    (decSp s).out = s.out := rfl

@[simp] theorem decSp_memInit (s : State) :
    (decSp s).memInit = s.memInit := rfl

@[simp] theorem decSp_mem (s : State) :
    (decSp s).mem = s.mem := rfl

/-! ## incSp -/

@[simp] theorem incSp_regs (s : State) :
    (incSp s).regs = s.regs.set spReg.val (sp s + 1) spReg.isLt := rfl

@[simp] theorem incSp_pc (s : State) :
    (incSp s).pc = s.pc := rfl

@[simp] theorem incSp_flags (s : State) :
    (incSp s).flags = s.flags := rfl

@[simp] theorem incSp_run (s : State) :
    (incSp s).run = s.run := rfl

@[simp] theorem incSp_faultCode (s : State) :
    (incSp s).faultCode = s.faultCode := rfl

@[simp] theorem incSp_faultPc (s : State) :
    (incSp s).faultPc = s.faultPc := rfl

@[simp] theorem incSp_latches (s : State) :
    (incSp s).latches = s.latches := rfl

@[simp] theorem incSp_out (s : State) :
    (incSp s).out = s.out := rfl

@[simp] theorem incSp_memInit (s : State) :
    (incSp s).memInit = s.memInit := rfl

@[simp] theorem incSp_mem (s : State) :
    (incSp s).mem = s.mem := rfl

/-! ## pushByte -/

@[simp] theorem pushByte_regs (value : State → Byte) (s : State) :
    (pushByte value s).regs = s.regs.set spReg.val (sp s - 1) spReg.isLt := rfl

@[simp] theorem pushByte_pc (value : State → Byte) (s : State) :
    (pushByte value s).pc = s.pc := rfl

@[simp] theorem pushByte_flags (value : State → Byte) (s : State) :
    (pushByte value s).flags = s.flags := rfl

@[simp] theorem pushByte_run (value : State → Byte) (s : State) :
    (pushByte value s).run = s.run := rfl

@[simp] theorem pushByte_faultCode (value : State → Byte) (s : State) :
    (pushByte value s).faultCode = s.faultCode := rfl

@[simp] theorem pushByte_faultPc (value : State → Byte) (s : State) :
    (pushByte value s).faultPc = s.faultPc := rfl

@[simp] theorem pushByte_latches (value : State → Byte) (s : State) :
    (pushByte value s).latches = s.latches := rfl

@[simp] theorem pushByte_out (value : State → Byte) (s : State) :
    (pushByte value s).out = s.out := rfl

@[simp] theorem pushByte_memInit (value : State → Byte) (s : State) :
    (pushByte value s).memInit = s.memInit := rfl

@[simp] theorem pushByte_mem (value : State → Byte) (s : State) :
    (pushByte value s).mem = Memory.write s.memInit (sp (decSp s)).toNat (value (decSp s)) s.mem := rfl

/-! ## applyAlu -/

@[simp] theorem applyAlu_regs (dest : Fin 8) (y : AluOut) (s : State) :
    (applyAlu dest y s).regs = if y.we then s.regs.set dest.val y.y dest.isLt else s.regs := by
  unfold applyAlu; split <;> rfl

@[simp] theorem applyAlu_pc (dest : Fin 8) (y : AluOut) (s : State) :
    (applyAlu dest y s).pc = s.pc := by
  unfold applyAlu; split <;> rfl

@[simp] theorem applyAlu_flags (dest : Fin 8) (y : AluOut) (s : State) :
    (applyAlu dest y s).flags = strobeFlags y s.flags := by
  unfold applyAlu; split <;> rfl

@[simp] theorem applyAlu_run (dest : Fin 8) (y : AluOut) (s : State) :
    (applyAlu dest y s).run = s.run := by
  unfold applyAlu; split <;> rfl

@[simp] theorem applyAlu_faultCode (dest : Fin 8) (y : AluOut) (s : State) :
    (applyAlu dest y s).faultCode = s.faultCode := by
  unfold applyAlu; split <;> rfl

@[simp] theorem applyAlu_faultPc (dest : Fin 8) (y : AluOut) (s : State) :
    (applyAlu dest y s).faultPc = s.faultPc := by
  unfold applyAlu; split <;> rfl

@[simp] theorem applyAlu_latches (dest : Fin 8) (y : AluOut) (s : State) :
    (applyAlu dest y s).latches = s.latches := by
  unfold applyAlu; split <;> rfl

@[simp] theorem applyAlu_out (dest : Fin 8) (y : AluOut) (s : State) :
    (applyAlu dest y s).out = s.out := by
  unfold applyAlu; split <;> rfl

@[simp] theorem applyAlu_memInit (dest : Fin 8) (y : AluOut) (s : State) :
    (applyAlu dest y s).memInit = s.memInit := by
  unfold applyAlu; split <;> rfl

@[simp] theorem applyAlu_mem (dest : Fin 8) (y : AluOut) (s : State) :
    (applyAlu dest y s).mem = s.mem := by
  unfold applyAlu; split <;> rfl

end Sys2Proof.Machine
end

