-- ==== Sys2Proof/Laws/Ops.lean ====
section
/-! SUPPORT. What each shared operation does, said once: registers, memory cells, the checks, the advance, the end of a
step. Proofs cite these and do not unfold the operations again. -/

namespace Sys2Proof.Machine

/-! ## Registers -/

theorem getReg_def (s : State) (r : Fin 8) : getReg s r = s.regs[r.val] := rfl

theorem getReg_setReg_same (s : State) (r : Fin 8) (v : Byte) : getReg (setReg s r v) r = v := by
  simp [getReg_def]

theorem getReg_setReg_other (s : State) {r q : Fin 8} (v : Byte) (h : q ≠ r) :
    getReg (setReg s r v) q = getReg s q := by
  have h' : r.val ≠ q.val := fun e => h (Fin.ext e.symm)
  simp [getReg_def, h']

/-- The register file after a write, read at any register. -/
theorem getReg_setReg (s : State) (r q : Fin 8) (v : Byte) :
    getReg (setReg s r v) q = if q = r then v else getReg s q := by
  by_cases h : q = r
  · subst h; simp [getReg_setReg_same]
  · simp [h, getReg_setReg_other]

/-- A register reads the same in two states that have the same register file. -/
theorem getReg_congr {s t : State} (h : t.regs = s.regs) (r : Fin 8) : getReg t r = getReg s r := by
  simp [getReg_def, h]

/-- Register files that read the same everywhere are equal. -/
theorem regs_ext {s t : State} (h : ∀ r, getReg t r = getReg s r) : t.regs = s.regs := by
  apply Vector.ext
  intro i hi
  exact h ⟨i, hi⟩

theorem sp_def (s : State) : sp s = getReg s 7 := rfl

theorem decSp_def (s : State) : decSp s = setReg s 7 (getReg s 7 - 1) := rfl

theorem incSp_def (s : State) : incSp s = setReg s 7 (getReg s 7 + 1) := rfl

/-! ## Memory cells -/

theorem listed_insert_same (addr : Nat) (v : Byte) (m : Memory) :
    Memory.listed (Memory.insert addr v m) addr = some v := by
  induction m with
  | nil => simp [Memory.insert, Memory.listed]
  | cons cell rest ih =>
    obtain ⟨k, w⟩ := cell
    simp only [Memory.insert]
    split
    · simp [Memory.listed]
    · split
      · simp [Memory.listed]
      · rename_i hne
        simp [Memory.listed, Ne.symm hne, ih]

theorem listed_insert_other {addr other : Nat} (v : Byte) (m : Memory) (h : other ≠ addr) :
    Memory.listed (Memory.insert addr v m) other = Memory.listed m other := by
  induction m with
  | nil => simp [Memory.insert, Memory.listed, Ne.symm h]
  | cons cell rest ih =>
    obtain ⟨k, w⟩ := cell
    simp only [Memory.insert]
    split
    · simp [Memory.listed, Ne.symm h]
    · split
      · rename_i heq
        subst heq
        simp [Memory.listed, Ne.symm h]
      · simp [Memory.listed, ih]

theorem listed_remove_same (addr : Nat) (m : Memory) : Memory.listed (Memory.remove addr m) addr = none := by
  induction m with
  | nil => rfl
  | cons cell rest ih =>
    obtain ⟨k, w⟩ := cell
    by_cases hk : k = addr
    · simpa [Memory.remove, hk] using ih
    · simpa [Memory.remove, Memory.listed, hk] using ih

theorem listed_remove_other {addr other : Nat} (m : Memory) (h : other ≠ addr) :
    Memory.listed (Memory.remove addr m) other = Memory.listed m other := by
  induction m with
  | nil => rfl
  | cons cell rest ih =>
    obtain ⟨k, w⟩ := cell
    by_cases hk : k = addr
    · subst hk
      simpa [Memory.remove, Memory.listed, Ne.symm h] using ih
    · by_cases ho : k = other
      · simp [Memory.remove, Memory.listed, ho, h]
      · simpa [Memory.remove, Memory.listed, hk, ho] using ih

/-- A cell after a write, read at any address (R25): in every state, canonical or not. -/
theorem cellAt_memWrite (s : State) (addr v : Byte) (other : Nat) :
    cellAt (memWrite s addr v) other = if other = addr.toNat then some v else cellAt s other := by
  simp only [cellAt, memWrite_mem, memWrite_memInit, Memory.write]
  by_cases h : other = addr.toNat
  · subst h
    split
    · rename_i hi
      simp [listed_remove_same, hi]
    · simp [listed_insert_same]
  · split
    · simp [listed_remove_other _ h]
    · simp [listed_insert_other _ _ h]

/-- A cell reads the same in two states that have the same memory. -/
theorem cellAt_congr {s t : State} (hm : t.mem = s.mem) (hi : t.memInit = s.memInit) (addr : Nat) :
    cellAt t addr = cellAt s addr := by
  simp [cellAt, hm, hi]

/-! ## The canonical form -/

theorem mem_insert {addr : Nat} {v : Byte} {m : Memory} {cell : Host.Cell} (h : cell ∈ Memory.insert addr v m) :
    cell = (addr, v) ∨ cell ∈ m := by
  induction m with
  | nil => simpa [Memory.insert] using h
  | cons head rest ih =>
    obtain ⟨k, w⟩ := head
    simp only [Memory.insert] at h
    split at h
    · simpa using h
    · split at h
      · rcases List.mem_cons.mp h with h | h
        · exact .inl h
        · exact .inr (List.mem_cons_of_mem _ h)
      · rcases List.mem_cons.mp h with h | h
        · exact .inr (h ▸ List.mem_cons_self)
        · rcases ih h with h | h
          · exact .inl h
          · exact .inr (List.mem_cons_of_mem _ h)

theorem insert_rising (addr : Nat) (v : Byte) (m : Memory) (h : m.Pairwise fun x y => x.1 < y.1) :
    (Memory.insert addr v m).Pairwise fun x y => x.1 < y.1 := by
  induction m with
  | nil => simp [Memory.insert]
  | cons head rest ih =>
    obtain ⟨k, w⟩ := head
    obtain ⟨hk, hr⟩ := List.pairwise_cons.mp h
    simp only [Memory.insert]
    split
    · rename_i hlt
      refine List.pairwise_cons.mpr ⟨?_, h⟩
      intro c hc
      rcases List.mem_cons.mp hc with rfl | hc
      · exact hlt
      · exact Nat.lt_trans hlt (hk c hc)
    · split
      · rename_i heq
        subst heq
        exact List.pairwise_cons.mpr ⟨hk, hr⟩
      · rename_i hge hne
        refine List.pairwise_cons.mpr ⟨?_, ih hr⟩
        intro c hc
        rcases mem_insert hc with rfl | hc
        · exact Nat.lt_of_le_of_ne (Nat.le_of_not_lt hge) (Ne.symm hne)
        · exact hk c hc

/-- The write keeps the canonical form, and memory operations are all made of it. -/
theorem write_wf {mi : MemInit} {m : Memory} (addr : Nat) (v : Byte) (ha : addr < Config.memSize)
    (h : Memory.wf mi m) : Memory.wf mi (Memory.write mi addr v m) := by
  obtain ⟨hp, hc⟩ := h
  unfold Memory.write
  split
  · exact ⟨hp.sublist List.filter_sublist, fun c hm => hc c (List.mem_of_mem_filter hm)⟩
  · rename_i hne
    refine ⟨insert_rising addr v m hp, fun c hm => ?_⟩
    rcases mem_insert hm with rfl | hm
    · exact ⟨ha, hne⟩
    · exact hc c hm

/-- A byte address is inside memory, so no write leaves it (R25, R64). -/
theorem toNat_lt_memSize (addr : Byte) : addr.toNat < Config.memSize := addr.isLt

theorem reset_mem_wf : Memory.wf State.reset.memInit State.reset.mem := by
  decide

/-! ## The checks -/

/-- The register check passes exactly for an index below 8 (R46). -/
theorem regIndex_of_lt {i : Byte} (r : Fin 8) (h : i.toNat = r.val) : regIndex i = .ok r := by
  unfold regIndex
  have hlt : i.toNat < 8 := h ▸ r.isLt
  rw [dif_pos hlt]
  exact congrArg _ (Fin.ext h)

theorem regIndex_of_ge {i : Byte} (h : 8 ≤ i.toNat) : regIndex i = .error .invalidRegister := by
  unfold regIndex
  rw [dif_neg (Nat.not_lt.mpr h)]

theorem regIndex_ok {i : Byte} {r : Fin 8} (h : regIndex i = .ok r) : i.toNat = r.val := by
  unfold regIndex at h
  split at h
  · cases h; rfl
  · cases h

theorem memRead_of_ge {s : State} {addr : Nat} (h : 256 ≤ addr) : memRead s addr = .error .invalidAddress := by
  simp [memRead, Config.memSize, h]

theorem memRead_of_none {s : State} {addr : Nat} (h : addr < 256) (hc : cellAt s addr = none) :
    memRead s addr = .error .uninitializedRead := by
  simp [memRead, Config.memSize, Nat.not_le.mpr h, hc]

theorem memRead_of_some {s : State} {addr : Nat} {v : Byte} (h : addr < 256) (hc : cellAt s addr = some v) :
    memRead s addr = .ok v := by
  simp [memRead, Config.memSize, Nat.not_le.mpr h, hc]

theorem memRead_ok {s : State} {addr : Nat} {v : Byte} (h : memRead s addr = .ok v) :
    addr < 256 ∧ cellAt s addr = some v := by
  unfold memRead at h
  split at h
  · cases h
  · rename_i hlt
    split at h
    · cases h
    · rename_i w hw
      cases h
      exact ⟨Nat.lt_of_not_le hlt, hw⟩

theorem checkAddress_of_lt {addr : Nat} (h : addr < 256) : checkAddress addr = .ok (BitVec.ofNat 8 addr) := by
  simp [checkAddress, Config.memSize, Nat.not_le.mpr h]

theorem checkAddress_of_ge {addr : Nat} (h : 256 ≤ addr) : checkAddress addr = .error .invalidAddress := by
  simp [checkAddress, Config.memSize, h]

theorem advance_of_lt {next : Nat} (s : State) (h : next < 256) :
    advance next s = .ok (setPc s (BitVec.ofNat 8 next)) := by
  rw [advance, checkAddress_of_lt h]; rfl

theorem advance_of_ge {next : Nat} (s : State) (h : 256 ≤ next) : advance next s = .error .invalidAddress := by
  rw [advance, checkAddress_of_ge h]; rfl

/-- All the advance can do (R48). -/
theorem advance_cases (next : Nat) (s : State) :
    (next < 256 ∧ advance next s = .ok (setPc s (BitVec.ofNat 8 next))) ∨
      (256 ≤ next ∧ advance next s = .error .invalidAddress) := by
  rcases Nat.lt_or_ge next 256 with h | h
  · exact .inl ⟨h, advance_of_lt s h⟩
  · exact .inr ⟨h, advance_of_ge s h⟩

/-! ## The end of a step -/

@[simp] theorem commit_ok (s t : State) : commit s (.ok t) = .next t := rfl

@[simp] theorem commit_error (s : State) (code : FaultCause) : commit s (.error code) = .next (enterFault code s) := rfl

/-- All the end of a step can do (R49): everything, or the fault entry. -/
theorem commit_cases {s t : State} {result : Except FaultCause State} (h : commit s result = .next t) :
    result = .ok t ∨ ∃ code, result = .error code ∧ t = enterFault code s := by
  cases result with
  | ok u => cases h; exact .inl rfl
  | error code => cases h; exact .inr ⟨code, rfl, rfl⟩

/-- Chaining two checked parts of a step: both pass, or the first that fails decides. -/
theorem bind_ok {α β : Type} {x : Except FaultCause α} {f : α → Except FaultCause β} {b : β}
    (h : (x >>= f) = .ok b) : ∃ a, x = .ok a ∧ f a = .ok b := by
  cases x with
  | ok a => exact ⟨a, rfl, h⟩
  | error e => cases h

@[simp] theorem ok_bind {α β : Type} (a : α) (f : α → Except FaultCause β) : ((.ok a : Except FaultCause α) >>= f) = f a := rfl

@[simp] theorem error_bind {α β : Type} (e : FaultCause) (f : α → Except FaultCause β) :
    ((.error e : Except FaultCause α) >>= f) = .error e := rfl

/-! ## Fetch and the latches -/

theorem latchOutcome_faulted (f : Fetched) {t : State} (h : t.run = .faulted) : latchOutcome f (.next t) = .next t := by
  simp [latchOutcome, h]

theorem latchOutcome_completed (f : Fetched) {t : State} (h : t.run ≠ .faulted) :
    latchOutcome f (.next t) = .next { t with latches := latchFetched f t.latches } := by
  cases hr : t.run <;> simp_all [latchOutcome]

/-- All the latching can do: it changes no field but the latches. -/
theorem latchOutcome_cases {f : Fetched} {o : Host.Outcome State Fault Refusal} {u : State}
    (h : latchOutcome f o = .next u) : ∃ t, o = .next t ∧ u = { t with latches := u.latches } := by
  cases o with
  | next t =>
    refine ⟨t, rfl, ?_⟩
    by_cases hr : t.run = .faulted
    · rw [latchOutcome_faulted f hr] at h; cases h; rfl
    · rw [latchOutcome_completed f hr] at h; cases h; rfl
  | fault r => cases h
  | refused r => cases h

/-- What a fetch that passes its checks has read (R43, R44, R45). -/
theorem fetch_ok {s : State} {f : Fetched} (h : fetch s = .ok f) :
    cellAt s s.pc.toNat = some f.ir ∧
      ((widthOf f.ir = .one ∧ f.ops = .none) ∨
       (∃ a, widthOf f.ir = .two ∧ f.ops = .one a ∧ s.pc.toNat + 1 < 256 ∧ cellAt s (s.pc.toNat + 1) = some a) ∨
       (∃ a b, widthOf f.ir = .three ∧ f.ops = .two a b ∧ s.pc.toNat + 2 < 256 ∧
         cellAt s (s.pc.toNat + 1) = some a ∧ cellAt s (s.pc.toNat + 2) = some b)) := by
  obtain ⟨ir, hir, h⟩ := bind_ok h
  obtain ⟨ops, hops, h⟩ := bind_ok h
  cases h
  refine ⟨(memRead_ok hir).2, ?_⟩
  cases hw : widthOf ir with
  | one =>
    rw [hw] at hops; cases hops
    exact .inl ⟨rfl, rfl⟩
  | two =>
    rw [hw] at hops
    obtain ⟨a, ha, hops⟩ := bind_ok hops
    cases hops
    exact .inr (.inl ⟨a, rfl, rfl, memRead_ok ha⟩)
  | three =>
    rw [hw] at hops
    obtain ⟨a, ha, hops⟩ := bind_ok hops
    obtain ⟨b, hb, hops⟩ := bind_ok hops
    cases hops
    exact .inr (.inr ⟨a, b, rfl, rfl, (memRead_ok hb).1, (memRead_ok ha).2, (memRead_ok hb).2⟩)

/-! ## The ALU's effect -/

/-- ADD's and MUL's outputs write the result and strobe nothing; CMP's write nothing and strobe one flag (R54). -/
theorem strobeFlags_none {y : AluOut} (he : y.setE = false) (hl : y.setL = false) (hg : y.setG = false) (f : Flags) :
    strobeFlags y f = f := by
  cases f; simp [strobeFlags, he, hl, hg]

end Sys2Proof.Machine
end

