-- ==== Sys2Proof/Laws/Exec.lean ====
section
/-! SUPPORT. What the shared parts of the meanings and of a step can do, said once: two register operands, the advance, the
stack operations, the ALU's effect, the instruction assembled from its bytes, and all the ways a step can end. -/

namespace Sys2Proof.Machine

/-! ## Addresses and operands -/

theorem ofNat_toNat_add (p : Byte) (k : Nat) : BitVec.ofNat 8 (p.toNat + k) = p + BitVec.ofNat 8 k := by
  apply BitVec.eq_of_toNat_eq; simp

theorem regIndexPair_of_lt {a b : Byte} (ra rb : Fin 8) (ha : a.toNat = ra.val) (hb : b.toNat = rb.val) :
    regIndexPair a b = .ok (ra, rb) := by
  simp [regIndexPair, regIndex_of_lt _ ha, regIndex_of_lt _ hb]

theorem regIndexPair_of_ge {a b : Byte} (h : 8 ≤ a.toNat ∨ 8 ≤ b.toNat) :
    regIndexPair a b = .error .invalidRegister := by
  rcases Nat.lt_or_ge a.toNat 8 with ha | ha
  · have hb := h.resolve_left (by omega)
    simp [regIndexPair, regIndex_of_lt ⟨_, ha⟩ rfl, regIndex_of_ge hb]
  · simp [regIndexPair, regIndex_of_ge ha]

theorem regIndexPair_ok {a b : Byte} {ra rb : Fin 8} (h : regIndexPair a b = .ok (ra, rb)) :
    a.toNat = ra.val ∧ b.toNat = rb.val := by
  obtain ⟨x, hx, h⟩ := bind_ok h
  obtain ⟨y, hy, h⟩ := bind_ok h
  cases h
  exact ⟨regIndex_ok hx, regIndex_ok hy⟩

theorem advance_ok {next : Nat} {s t : State} (h : advance next s = .ok t) :
    next < 256 ∧ t = setPc s (BitVec.ofNat 8 next) := by
  rcases advance_cases next s with ⟨hlt, he⟩ | ⟨-, he⟩
  · rw [he] at h; cases h; exact ⟨hlt, rfl⟩
  · rw [he] at h; cases h

/-! ## The stack -/

theorem getReg_decSp (s : State) (r : Fin 8) : getReg (decSp s) r = if r = 7 then getReg s 7 - 1 else getReg s r := by
  rw [decSp_def, getReg_setReg]

theorem getReg_incSp (s : State) (r : Fin 8) : getReg (incSp s) r = if r = 7 then getReg s 7 + 1 else getReg s r := by
  rw [incSp_def, getReg_setReg]

theorem sp_decSp (s : State) : sp (decSp s) = getReg s 7 - 1 := by
  rw [sp_def, getReg_decSp]; rfl

/-- The registers after a pushed byte: only R7 moves. -/
theorem getReg_pushByte (v : State → Byte) (s : State) (r : Fin 8) :
    getReg (pushByte v s) r = if r = 7 then getReg s 7 - 1 else getReg s r :=
  (getReg_congr (s := decSp s) rfl r).trans (getReg_decSp s r)

/-- The cells after a pushed byte: only the cell at the new stack pointer changes. -/
theorem cellAt_pushByte (v : State → Byte) (s : State) (addr : Nat) :
    cellAt (pushByte v s) addr = if addr = (sp (decSp s)).toNat then some (v (decSp s)) else cellAt s addr :=
  cellAt_memWrite (decSp s) _ _ addr

/-! ## The ALU -/

theorem applyAlu_add (r : Fin 8) (x y : Byte) (s : State) :
    applyAlu r (alu aluAdd x y) s = setReg s r (BitVec.ofNat 8 ((x.toNat + y.toNat) % 256)) := by
  simp [applyAlu, alu, strobeFlags, setReg]

theorem applyAlu_mul (r : Fin 8) (x y : Byte) (s : State) :
    applyAlu r (alu aluMul x y) s = setReg s r (BitVec.ofNat 8 (x.toNat * y.toNat % 256)) := by
  simp [applyAlu, alu, aluMul, aluAdd, strobeFlags, setReg]

theorem applyAlu_cmp_regs (r : Fin 8) (x y : Byte) (s : State) :
    (applyAlu r (alu aluCmp x y) s).regs = s.regs := by
  simp [alu, aluCmp, aluAdd, aluMul]

/-- All an ALU instruction that passes its checks can do. -/
theorem aluInstruction_ok {op : Op} {sel : BitVec 2} {a b : Byte} {s t : State}
    (h : aluInstruction op sel a b s = .ok t) :
    ∃ ra rb : Fin 8, a.toNat = ra.val ∧ b.toNat = rb.val ∧ nextAddress (opcodeOf op) s < 256 ∧
      t = setPc (applyAlu ra (alu sel (getReg s ra) (getReg s rb)) s) (BitVec.ofNat 8 (nextAddress (opcodeOf op) s)) := by
  obtain ⟨⟨ra, rb⟩, hx, h⟩ := bind_ok h
  obtain ⟨ha, hb⟩ := regIndexPair_ok hx
  obtain ⟨hlt, ht⟩ := advance_ok h
  exact ⟨ra, rb, ha, hb, hlt, ht⟩

/-! ## The assembled instruction -/

theorem assembleOp_some (ops : Operands) (op : Op) (i : Instr) (h : assembleOp op ops = some i) :
    i.opcode = opcodeOf op ∧ i.operands = ops := by
  cases op <;> cases ops <;> simp [assembleOp, formatF1, formatF2, formatF3] at h <;> subst h <;> exact ⟨rfl, rfl⟩

/-- Bytes whose operands fit the width assemble to the instruction of their opcode, or, for a byte outside the table, to the
unrecognized one. -/
theorem assemble_cases (ir : Byte) (ops : Operands) (hw : ops.width = widthOf ir) :
    (opOf ir = none ∧ assemble ir ops = .unrecognized ir ops) ∨
      ∃ op, ir = opcodeOf op ∧ assembleOp op ops = some (assemble ir ops) := by
  cases ho : opOf ir with
  | none => exact .inl ⟨rfl, by simp [assemble, ho]⟩
  | some op =>
    have e := opcodeOf_of_opOf ho
    subst e
    obtain ⟨i, hi⟩ := Option.isSome_iff_exists.mp (assembleOp_width op ops hw.symm)
    exact .inr ⟨op, rfl, by rw [hi]; simp [assemble, hi]⟩

/-! ## A step -/

/-- The end of a step always answers a next state (R49). -/
theorem commit_next (s : State) (result : Except FaultCause State) : ∃ t, commit s result = .next t := by
  cases result <;> exact ⟨_, rfl⟩

/-- All the ways a step can end: outside RUNNING it stays; a failed fetch takes the fault; else the meaning's state, with the
latches written. -/
theorem step_cases {s u : State} (h : step s = .next u) :
    (s.run ≠ .running ∧ u = s) ∨
      (s.run = .running ∧ ∃ code, fetch s = .error code ∧ u = enterFault code s) ∨
      (s.run = .running ∧ ∃ f t, fetch s = .ok f ∧ exec (assemble f.ir f.ops) s = .next t ∧
        u = { t with latches := u.latches }) := by
  unfold step at h
  split at h
  · rename_i hr
    split at h
    · rename_i code hc
      simp only [commit_error] at h
      cases h
      exact .inr (.inl ⟨hr, code, hc, rfl⟩)
    · rename_i f hf
      obtain ⟨t, ht, hu⟩ := latchOutcome_cases h
      exact .inr (.inr ⟨hr, f, t, hf, ht, hu⟩)
  · rename_i hr; cases h; exact .inl ⟨by simp [hr], rfl⟩
  · rename_i hr; cases h; exact .inl ⟨by simp [hr], rfl⟩

end Sys2Proof.Machine
end

