-- ==== Sys2Proof/Laws/PerInstr.lean ====
section
/-! SUPPORT. The per-instruction family EncodeShape: how many bytes an instruction's encoding has, and which comes first. -/

/-- The encoding begins with the opcode byte and is as long as that byte's width says (R33, R34). -/
def Sys2Proof.Laws.EncodeShape.Statement (i : Sys2Proof.Instr) : Prop :=
  i.wellFormed = true →
    (Sys2Proof.encode i).head? = some i.opcode ∧
    (Sys2Proof.encode i).length = (Sys2Proof.widthOf i.opcode).bytes

namespace Sys2Proof.Laws.EncodeShape

theorem ldi (a imm : Byte) : Statement (.ldi a imm) := by
  intro _
  simp [encode, Instr.opcode, Instr.operands, Operands.toList, Width.bytes]

theorem add (a b : Byte) : Statement (.add a b) := by
  intro _
  simp [encode, Instr.opcode, Instr.operands, Operands.toList, Width.bytes]

theorem mul (a b : Byte) : Statement (.mul a b) := by
  intro _
  simp [encode, Instr.opcode, Instr.operands, Operands.toList, Width.bytes]

theorem cmp (a b : Byte) : Statement (.cmp a b) := by
  intro _
  simp [encode, Instr.opcode, Instr.operands, Operands.toList, Width.bytes]

theorem prn (a : Byte) : Statement (.prn a) := by
  intro _
  simp [encode, Instr.opcode, Instr.operands, Operands.toList, Width.bytes]

theorem push (a : Byte) : Statement (.push a) := by
  intro _
  simp [encode, Instr.opcode, Instr.operands, Operands.toList, Width.bytes]

theorem pop (a : Byte) : Statement (.pop a) := by
  intro _
  simp [encode, Instr.opcode, Instr.operands, Operands.toList, Width.bytes]

theorem call (a : Byte) : Statement (.call a) := by
  intro _
  simp [encode, Instr.opcode, Instr.operands, Operands.toList, Width.bytes]

theorem ret : Statement .ret := by
  intro _
  simp [encode, Instr.opcode, Instr.operands, Operands.toList, Width.bytes]

theorem hlt : Statement .hlt := by
  intro _
  simp [encode, Instr.opcode, Instr.operands, Operands.toList, Width.bytes]

theorem unrecognized (ir : Byte) (ops : Operands) : Statement (.unrecognized ir ops) := by
  intro h
  have hw : widthOf ir = ops.width := by
    simp [Instr.wellFormed] at h
    exact h.2
  refine ⟨rfl, ?_⟩
  show ops.toList.length + 1 = (widthOf ir).bytes
  rw [hw]
  cases ops <;> rfl

end Sys2Proof.Laws.EncodeShape
end

