-- ==== Sys2Proof/Tests/Slice0.lean ====
section
/-! SUPPORT. Tests of single steps, whose expected results are the rows of spec/95_test_vectors.md (named in each comment)
and the encodings of R38; the refusals of the well-formedness checks; and for every statement with hypotheses a witness
that meets them. -/

namespace Sys2Proof.Tests

open Sys2Proof.Machine

/-- The state a step or a meaning answers, if it answers one. -/
def after (o : Host.Outcome State Fault Refusal) : Option State :=
  match o with
  | .next t => some t
  | .fault _ => none
  | .refused _ => none

/-- What `after` finds is a next state. -/
theorem answers {o : Host.Outcome State Fault Refusal} (h : (after o).isSome = true) : ∃ t, o = .next t := by
  cases o with
  | next t => exact ⟨t, rfl⟩
  | fault r => cases h
  | refused r => cases h

/-- `s` with these bytes at `pc`. -/
def placed (pc : Byte) (bytes : List Byte) (s : State) : State :=
  { placeImage pc.toNat bytes s with pc := pc }

/-- `s` with R0 and R1 set. -/
def r01 (x y : Byte) (s : State) : State :=
  setReg (setReg s 0 x) 1 y

/-- The state after one step from `s` with these bytes at `pc`. -/
def stepped (pc : Byte) (bytes : List Byte) (s : State) : Option State :=
  after (step (placed pc bytes s))

/-- What a faulting step shows: the fault record, the unchanged `pc`, and the unchanged SP. -/
def faultView (t : State) : RunState × Option FaultCause × Byte × Byte × Byte :=
  (t.run, t.faultCode, t.faultPc, t.pc, sp t)

/-! ## Well-formedness refuses -/

/-- An assigned byte is no unrecognized instruction (R38, R40). -/
theorem test_illformed_assigned_byte : (Instr.unrecognized 0x01 .none).wellFormed = false := by decide

/-- The operand bytes must be as many as the width says (R34). -/
theorem test_illformed_operand_count : (Instr.unrecognized 0xC0 (.one 0)).wellFormed = false := by decide

/-- Register 8 is out of range, as operand A and as operand B (R37). -/
theorem test_register_out_of_range :
    (Instr.ldi 8 0).registersInRange = false ∧ (Instr.add 0 8).registersInRange = false ∧
    (Instr.mul 8 0).registersInRange = false ∧ (Instr.cmp 0 255).registersInRange = false ∧
    (Instr.prn 8).registersInRange = false ∧ (Instr.push 8).registersInRange = false ∧
    (Instr.pop 8).registersInRange = false ∧ (Instr.call 8).registersInRange = false := by decide

theorem test_wellformed_accepts :
    (Instr.ldi 9 200).wellFormed = true ∧ (Instr.unrecognized 0xC0 (.two 9 9)).wellFormed = true ∧
    (Instr.ldi 7 200).registersInRange = true ∧ (Instr.unrecognized 0x80 (.two 9 9)).registersInRange = true := by decide

/-! ## Decoding (R38; L2.0 of the vectors) -/

theorem test_decode_ldi : decode [0b10000010, 0b00000000, 0b00101000, 0xFF] = .ok (.ldi 0 40, [0xFF]) := by decide

theorem test_decode_add : decode [0b10100000, 0b00000111, 0b00000110] = .ok (.add 7 6, []) := by decide

theorem test_decode_mul : decode [0b10100010, 0b00000001, 0b00000010] = .ok (.mul 1 2, []) := by decide

theorem test_decode_cmp : decode [0b10100111, 0b00000101, 0b00000100] = .ok (.cmp 5 4, []) := by decide

theorem test_decode_prn : decode [0b01000111, 0b00000011] = .ok (.prn 3, []) := by decide

theorem test_decode_push : decode [0b01000101, 0b00000111] = .ok (.push 7, []) := by decide

theorem test_decode_pop : decode [0b01000110, 0b00000010] = .ok (.pop 2, []) := by decide

theorem test_decode_call : decode [0b01010000, 0b00000001] = .ok (.call 1, []) := by decide

theorem test_decode_ret : decode [0b00010001, 0b00000001] = .ok (.ret, [0b00000001]) := by decide

theorem test_decode_hlt : decode [0b00000001] = .ok (.hlt, []) := by decide

theorem test_decode_unrecognized :
    decode [0b11111111, 0b00000001, 0b00000010] = .ok (.unrecognized 0xFF (.two 1 2), []) ∧
    decode [0b01111111, 0b00000001] = .ok (.unrecognized 0x7F (.one 1), []) ∧
    decode [0b00111111] = .ok (.unrecognized 0x3F .none, []) := by decide

theorem test_decode_refuses_by_name :
    decode [] = .error .missingOpcode ∧ decode [0x47] = .error .missingOperandA ∧
    decode [0x82] = .error .missingOperandA ∧ decode [0x82, 0] = .error .missingOperandB := by decide

/-- The row of width values in L2.0. -/
theorem test_widths :
    ([0x00, 0x01, 0x11, 0x3F, 0x40, 0x45, 0x46, 0x47, 0x50, 0x7F, 0x80, 0x82, 0xA0, 0xA2, 0xA7, 0xBF, 0xC0, 0xFF].map
      fun ir => (widthOf ir).bytes) = [1, 1, 1, 1, 2, 2, 2, 2, 2, 2, 3, 3, 3, 3, 3, 3, 3, 3] := by decide

theorem test_encode_ldi : encode (.ldi 0 40) = [0x82, 0x00, 0x28] := by decide

theorem test_decodeTableWord :
    decodeTableWord 24 0x280082 = some (.ldi 0 40) ∧ decodeTableWord 8 0x47 = some (.prn 0) ∧
    decodeTableWord 8 0xFF0011 = some .ret := by decide

/-- The first step after reset runs the word placed: LDI R0,40 (S1). -/
theorem test_withFetchWord :
    (after (step (State.reset.withFetchWord 24 0x280082))).map (fun t => (getReg t 0, t.pc)) = some (40, 3) := by decide

/-! ## One step of each instruction (95_test_vectors.md) -/

/-- L2.1 rows 1 and 4: a sum that wraps, and one register doubled. -/
theorem test_add_wraps :
    (stepped 0 [0xA0, 0, 1] (r01 200 100 State.reset)).map (fun t => (getReg t 0, getReg t 1, t.pc)) = some (44, 100, 3) ∧
    (stepped 0 [0xA0, 0, 0] (r01 200 0 State.reset)).map (fun t => getReg t 0) = some 144 := by decide

/-- L2.1 rows 14 and 15: the advance past 255 faults, after the register check. -/
theorem test_add_faults :
    (stepped 253 [0xA0, 0, 1] (r01 1 2 State.reset)).map (fun t => (getReg t 0, t.faultCode)) =
      some (1, some .invalidAddress) ∧
    (stepped 253 [0xA0, 9, 1] State.reset).map faultView =
      some (.faulted, some .invalidRegister, 253, 253, 0xF4) := by decide

/-- L2.1 rows 6 and 8. -/
theorem test_mul_low_byte :
    (stepped 0 [0xA2, 0, 1] (r01 8 9 State.reset)).map (fun t => (getReg t 0, t.pc)) = some (72, 3) ∧
    (stepped 0 [0xA2, 0, 1] (r01 255 255 State.reset)).map (fun t => getReg t 0) = some 1 := by decide

/-- L2.1 row 11: the stack pointer squared. -/
theorem test_mul_stack_pointer :
    (stepped 0 [0xA2, 7, 7] State.reset).map (fun t => getReg t 7) = some 0x90 := by decide

/-- L2.2 rows 1 and 4: the direction, and that it is unsigned. -/
theorem test_cmp_direction :
    (stepped 0 [0xA7, 0, 1] (r01 5 7 State.reset)).map (fun t => (t.flags, t.pc)) =
      some ({ e := false, l := true, g := false, fl := 0 }, 3) ∧
    (stepped 0 [0xA7, 0, 1] (r01 0x80 0x7F State.reset)).map (fun t => t.flags) =
      some { e := false, l := false, g := true, fl := 0 } := by decide

/-- L2.2 row 6: a flag of an earlier compare stays. -/
theorem test_cmp_keeps_flags :
    (stepped 0 [0xA7, 0, 1] { r01 9 3 State.reset with flags := { e := true, l := false, g := false, fl := 0 } }).map
      (fun t => t.flags) = some { e := true, l := false, g := true, fl := 0 } := by decide

/-- L2.3 rows 1 and 3. -/
theorem test_ldi :
    (stepped 0 [0x82, 7, 0x10] State.reset).map (fun t => (sp t, t.pc)) = some (0x10, 3) ∧
    (stepped 0 [0x82, 8, 1] State.reset).map faultView = some (.faulted, some .invalidRegister, 0, 0, 0xF4) := by decide

/-- L2.3 row 4: operand B would be at 256. -/
theorem test_ldi_operand_past_top :
    (stepped 254 [0x82, 0] State.reset).map faultView = some (.faulted, some .invalidAddress, 254, 254, 0xF4) := by decide

/-- L2.3 row 5. -/
theorem test_prn_emits :
    (stepped 0 [0x47, 7] State.reset).map (fun t => (t.out, t.pc)) = some ([244], 2) := by decide

/-- L2.3 rows 6 and 7: nothing is emitted. -/
theorem test_prn_faults :
    (stepped 255 [0x47] State.reset).map (fun t => (t.out, t.faultCode)) = some ([], some .invalidAddress) ∧
    (stepped 0 [0x47, 9] State.reset).map (fun t => (t.out, t.faultCode)) = some ([], some .invalidRegister) := by decide

/-- L2.4 rows 1 and 2: PUSH R7 stores the new SP. -/
theorem test_push :
    (stepped 0 [0x45, 0] (r01 42 0 State.reset)).map (fun t => (sp t, cellAt t 0xF3, t.pc)) = some (0xF3, some 42, 2) ∧
    (stepped 0 [0x45, 7] State.reset).map (fun t => (sp t, cellAt t 0xF3)) = some (0xF3, some 0xF3) := by decide

/-- L2.4 row 3: SP wraps from 0 to 255. -/
theorem test_push_wraps :
    (stepped 0x10 [0x45, 0] (setReg (r01 0x55 0 State.reset) 7 0)).map (fun t => (sp t, cellAt t 0xFF, t.pc)) =
      some (0xFF, some 0x55, 0x12) := by decide

/-- L2.4 rows 4 and 5: the two values of MEM_INIT. -/
theorem test_pop_empty_stack :
    (stepped 0 [0x46, 0] State.reset).map faultView = some (.faulted, some .uninitializedRead, 0, 0, 0xF4) ∧
    (stepped 0 [0x46, 0] (coldState .fullZero)).map (fun t => (getReg t 0, sp t, t.pc)) = some (0, 0xF5, 2) := by decide

/-- L2.4 rows 6 and 7: SP wraps from 255 to 0; POP R7 loads and then increments. -/
theorem test_pop :
    (stepped 0x10 [0x46, 1] (memWrite (setReg State.reset 7 0xFF) 0xFF 0x66)).map (fun t => (getReg t 1, sp t, t.pc)) =
      some (0x66, 0, 0x12) ∧
    (stepped 0x10 [0x46, 7] (memWrite (setReg State.reset 7 0xF3) 0xF3 0x42)).map sp = some 0x43 := by decide

/-- L2.5 rows 1 and 3: CALL R7 jumps to the new SP. -/
theorem test_call :
    (stepped 6 [0x50, 1] (r01 0 0x10 State.reset)).map (fun t => (sp t, cellAt t 0xF3, t.pc)) =
      some (0xF3, some 0x08, 0x10) ∧
    (stepped 0x10 [0x50, 7] State.reset).map (fun t => (sp t, cellAt t 0xF3, t.pc)) = some (0xF3, some 0x12, 0xF3) := by
  decide

/-- L2.5 rows 4 and 5. -/
theorem test_call_faults :
    (stepped 254 [0x50, 1] (r01 0 0x20 State.reset)).map faultView =
      some (.faulted, some .invalidAddress, 254, 254, 0xF4) ∧
    (stepped 0x10 [0x50, 8] State.reset).map faultView = some (.faulted, some .invalidRegister, 0x10, 0x10, 0xF4) := by
  decide

/-- L2.5 rows 2 and 7. -/
theorem test_ret :
    (stepped 0x10 [0x11] (memWrite (setReg State.reset 7 0xF3) 0xF3 0x08)).map (fun t => (t.pc, sp t)) =
      some (0x08, 0xF4) ∧
    (stepped 0x10 [0x11] (coldState .fullZero)).map (fun t => (t.pc, sp t)) = some (0, 0xF5) := by decide

/-- L2.5 row 6. -/
theorem test_ret_empty_stack :
    (stepped 0x10 [0x11] State.reset).map faultView = some (.faulted, some .uninitializedRead, 0x10, 0x10, 0xF4) := by
  decide

/-- L2.5 rows 8 and 9 (S3): at 255 the halt does not take effect. -/
theorem test_hlt :
    (stepped 0 [0x01] State.reset).map (fun t => (t.run, t.pc, t.out)) = some (.halted, 1, []) ∧
    (stepped 255 [0x01] State.reset).map faultView = some (.faulted, some .invalidAddress, 255, 255, 0xF4) := by decide

/-- L2.6 rows 1 to 3: operands of an unrecognized opcode are not checked as registers. -/
theorem test_unrecognized :
    (stepped 5 [0x00] State.reset).map (fun t => t.pc) = some 6 ∧
    (stepped 0 [0xFF, 1, 2] State.reset).map (fun t => t.pc) = some 3 ∧
    (stepped 0 [0x80, 9, 9] State.reset).map (fun t => (t.pc, t.run)) = some (3, .running) := by decide

/-- L2.6 rows 4 and 5: its operand bytes are fetched. -/
theorem test_unrecognized_faults :
    (stepped 254 [0xC0, 0] State.reset).map (fun t => t.faultCode) = some (some .invalidAddress) ∧
    (stepped 255 [0x40] State.reset).map (fun t => t.faultCode) = some (some .invalidAddress) := by decide

/-- P7: cell 8 holds no value after a PARTIAL_CLEAR boot. -/
theorem test_fetch_uninitialized :
    (after (step { State.reset with pc := 8 })).map faultView =
      some (.faulted, some .uninitializedRead, 8, 8, 0xF4) := by decide

/-- S1's image at the release of reset, and what the host prints for its output (R63). -/
theorem test_boot_and_text :
    (boot .partialClear [0x82, 0x00, 0x28, 0x47, 0x00, 0x01]).map (fun s => (cellAt s 2, cellAt s 6, cellAt s 8, s.pc)) =
      some (some 0x28, some 0, none, 0) ∧
    outputText [40, 244] = "40\n244\n" := by decide

/-- Memory written out of order and twice is the same data, and writing what an unlisted cell reads as lists nothing. -/
theorem test_memory_canonical :
    (memWrite (memWrite State.reset 9 1) 8 2).mem = [(8, 2), (9, 1)] ∧
    (memWrite (memWrite State.reset 3 1) 3 0).mem = [] := by decide

/-! ## Witnesses: for every statement with hypotheses, states and operands that meet them, at the edge of their range -/

/-- The reset state with `pc` moved. -/
def atPc (pc : Byte) : State :=
  placed pc [] State.reset

/-- A block stopped after a HLT at 0. -/
def haltedState : State :=
  { memWrite State.reset 0 1 with pc := 1, run := .halted }

/-- A block stopped by the fault of P6. -/
def faultedState : State :=
  enterFault .invalidRegister (memWrite State.reset 0 0x82)

/-- A block whose stack pointer is at the last cell, which holds 0x66, at `pc`. -/
def stackAtTop (pc : Byte) : State :=
  placed pc [] (memWrite (setReg State.reset 7 255) 255 0x66)

/-- ResetRegisterValues: the first and the last register below R7. -/
theorem witness_ResetRegisterValues : (0 : Fin 8).val < 7 ∧ (6 : Fin 8).val < 7 := by decide

/-- The longest image with the greatest value. -/
theorem witness_BootPlacesTheImage :
    (List.replicate 256 255).length ≤ 256 ∧ (∀ v ∈ List.replicate 256 255, v < 256) ∧ [255][0]? = some 255 := by
  refine ⟨Nat.le_of_eq List.length_replicate, fun v hv => ?_, rfl⟩
  rw [List.eq_of_mem_replicate hv]
  decide

/-- Both clauses at the first value out of range. -/
theorem witness_BootRefusesWhatDoesNotFit : 256 < (List.replicate 257 0).length ∧ ∃ v ∈ [256], 256 ≤ v := by
  exact ⟨Nat.lt_of_lt_of_eq (Nat.lt_succ_self 256) List.length_replicate.symm, 256, List.mem_singleton_self _,
    Nat.le_refl _⟩

theorem witness_DecodeUndoesEncode :
    (Instr.unrecognized 0xC0 (.two 9 9)).wellFormed = true ∧ (Instr.unrecognized 0x00 .none).wellFormed = true ∧
    (Instr.ldi 255 255).wellFormed = true := by decide

theorem witness_EncodeUndoesDecode : decode [0xC0, 9, 9, 1] = .ok (.unrecognized 0xC0 (.two 9 9), [1]) := by decide

/-- At the last address from which LDI completes, and at the first from which it faults. -/
theorem witness_StepRunsDecodedInstruction :
    (placed 252 [0x82, 0, 40] State.reset).run = .running ∧ (placed 253 [0x82, 0, 40] State.reset).run = .running ∧
    decode (fetchedBytes { ir := 0x82, ops := .two 0 40 }) = .ok (.ldi 0 40, []) ∧
    holdsBytes (placed 252 [0x82, 0, 40] State.reset) 252 (fetchedBytes { ir := 0x82, ops := .two 0 40 }) ∧
    holdsBytes (placed 253 [0x82, 0, 40] State.reset) 253 (fetchedBytes { ir := 0x82, ops := .two 0 40 }) ∧
    ((after (exec (.ldi 0 40) (placed 252 [0x82, 0, 40] State.reset))).map fun t => t.run) = some .running ∧
    ((after (exec (.ldi 0 40) (placed 253 [0x82, 0, 40] State.reset))).map fun t => t.run) = some .faulted := by
  refine ⟨by decide, by decide, by decide, ?_, ?_, by decide, by decide⟩
  · exact ⟨by decide, by decide, by decide, by decide, by decide, by decide, trivial⟩
  · exact ⟨by decide, by decide, by decide, by decide, by decide, by decide, trivial⟩

/-- No IR. -/
theorem witness_FetchAndOperandFaults_ir : (atPc 8).run = .running ∧ cellAt (atPc 8) (atPc 8).pc.toNat = none := by decide

/-- Operand A at 256, and operand A in an empty last cell. -/
theorem witness_FetchAndOperandFaults_a :
    (placed 255 [0x47] State.reset).run = .running ∧ cellAt (placed 255 [0x47] State.reset) 255 = some 0x47 ∧
    widthOf 0x47 ≠ .one ∧ 256 ≤ (placed 255 [0x47] State.reset).pc.toNat + 1 ∧
    (placed 254 [0x47] State.reset).run = .running ∧ cellAt (placed 254 [0x47] State.reset) 254 = some 0x47 ∧
    (placed 254 [0x47] State.reset).pc.toNat + 1 < 256 ∧ cellAt (placed 254 [0x47] State.reset) 255 = none := by decide

/-- Operand B at 256, and operand B in an empty last cell. -/
theorem witness_FetchAndOperandFaults_b :
    (placed 254 [0x82, 0] State.reset).run = .running ∧ cellAt (placed 254 [0x82, 0] State.reset) 254 = some 0x82 ∧
    widthOf 0x82 = .three ∧ cellAt (placed 254 [0x82, 0] State.reset) 255 = some 0 ∧
    256 ≤ (placed 254 [0x82, 0] State.reset).pc.toNat + 2 ∧
    (placed 253 [0x82, 0] State.reset).run = .running ∧ cellAt (placed 253 [0x82, 0] State.reset) 253 = some 0x82 ∧
    cellAt (placed 253 [0x82, 0] State.reset) 254 = some 0 ∧ (placed 253 [0x82, 0] State.reset).pc.toNat + 2 < 256 ∧
    cellAt (placed 253 [0x82, 0] State.reset) 255 = none := by decide

/-- A step with two failing checks, one with the last alone failing, one with none. -/
theorem witness_FirstFailingCheckDecides :
    (placed 253 [0xA0, 9, 8] State.reset).run = .running ∧
    firstFault (placed 253 [0xA0, 9, 8] State.reset) = some .invalidRegister ∧
    firstFault (placed 253 [0xA0, 0, 1] State.reset) = some .invalidAddress ∧
    firstFault (placed 252 [0xA0, 0, 1] State.reset) = none := by decide

theorem witness_FaultingStepIsAtomic :
    (placed 0 [0x82, 8, 1] State.reset).run = .running ∧
    ((after (step (placed 0 [0x82, 8, 1] State.reset))).map fun t => t.run) = some .faulted := by decide

theorem witness_TerminalStatesStay : haltedState.run ≠ .running ∧ faultedState.run ≠ .running := by decide

/-- The highest address at which a three-byte instruction completes. -/
theorem witness_SequentialStepAdvancesByWidth :
    (placed 252 [0xA0, 0, 1] State.reset).run = .running ∧
    cellAt (placed 252 [0xA0, 0, 1] State.reset) 252 = some 0xA0 ∧ (0xA0 : Byte) ≠ opcodeOf .call ∧
    (0xA0 : Byte) ≠ opcodeOf .ret ∧
    ((after (step (placed 252 [0xA0, 0, 1] State.reset))).map fun t => (t.run, t.pc)) = some (.running, 255) := by decide

/-- The highest register and the lowest, at the highest address. -/
theorem witness_AddResult :
    (7 : Byte).toNat = (7 : Fin 8).val ∧ (0 : Byte).toNat = (0 : Fin 8).val ∧ (atPc 252).pc.toNat + 3 < 256 := by decide

/-- One register as both operands. -/
theorem witness_MulResult : (7 : Byte).toNat = (7 : Fin 8).val ∧ (atPc 252).pc.toNat + 3 < 256 := by decide

theorem witness_CmpResult :
    (0 : Byte).toNat = (0 : Fin 8).val ∧ (7 : Byte).toNat = (7 : Fin 8).val ∧ (atPc 252).pc.toNat + 3 < 256 := by decide

theorem witness_LdiResult : (7 : Byte).toNat = (7 : Fin 8).val ∧ (atPc 252).pc.toNat + 3 < 256 := by decide

theorem witness_PrnResult : (7 : Byte).toNat = (7 : Fin 8).val ∧ (atPc 253).pc.toNat + 2 < 256 := by decide

theorem witness_OutputGrowsByPrnAlone : (stepped 0 [0x47, 7] State.reset).map (fun t => t.out) = some [244] := by decide

theorem witness_PushResult : (7 : Byte).toNat = (7 : Fin 8).val ∧ (atPc 253).pc.toNat + 2 < 256 := by decide

theorem witness_PopResult :
    (7 : Byte).toNat = (7 : Fin 8).val ∧ cellAt (stackAtTop 253) (getReg (stackAtTop 253) 7).toNat = some 0x66 ∧
    (stackAtTop 253).pc.toNat + 2 < 256 := by decide

theorem witness_PushThenPopRestores : (7 : Byte).toNat < 8 ∧ (atPc 251).pc.toNat + 4 < 256 := by decide

theorem witness_PushThenPopCopies :
    (0 : Byte).toNat = (0 : Fin 8).val ∧ (6 : Byte).toNat = (6 : Fin 8).val ∧ (0 : Fin 8) ≠ 7 ∧ (6 : Fin 8) ≠ 7 ∧
    (atPc 251).pc.toNat + 4 < 256 := by decide

/-- P5's PUSH at 6 with SP at 9. -/
theorem witness_PushedByteIsFetchedNext :
    (placed 6 [0x45, 0] (setReg State.reset 7 9)).run = .running ∧ (0 : Byte).toNat = (0 : Fin 8).val ∧
    (placed 6 [0x45, 0] (setReg State.reset 7 9)).pc.toNat + 2 < 256 ∧
    getReg (placed 6 [0x45, 0] (setReg State.reset 7 9)) 7 = (placed 6 [0x45, 0] (setReg State.reset 7 9)).pc + 3 ∧
    (0 : Fin 8) ≠ 7 := by decide

theorem witness_CallResult : (7 : Byte).toNat = (7 : Fin 8).val ∧ (atPc 253).pc.toNat + 2 < 256 := by decide

/-- At the last address, where RET still completes. -/
theorem witness_RetResult : cellAt (stackAtTop 255) (getReg (stackAtTop 255) 7).toNat = some 0x66 := by decide

theorem witness_HltResult : (atPc 254).pc.toNat + 1 < 256 := by decide

/-- Each width at its highest address. -/
theorem witness_UnrecognizedResult :
    (atPc 254).pc.toNat + (widthOf 0x00).bytes < 256 ∧ (atPc 253).pc.toNat + (widthOf 0x40).bytes < 256 ∧
    (atPc 252).pc.toNat + (widthOf 0xC0).bytes < 256 := by decide

theorem witness_CallThenRetReturns : (7 : Byte).toNat < 8 ∧ (atPc 253).pc.toNat + 2 < 256 := by decide

theorem witness_OnlyHltHalts :
    ((after (step (placed 0 [0x01] State.reset))).map fun t => t.run) = some .halted ∧
    (placed 0 [0x01] State.reset).run ≠ .halted := by decide

/-- The first index out of range, in A; the last, in B. -/
theorem witness_OutOfRangeRegisterTraps : 8 ≤ (8 : Byte).toNat ∧ 8 ≤ (255 : Byte).toNat := by decide

/-- The lowest `pc` of each clause. -/
theorem witness_AdvancePastTheTopTraps :
    (7 : Byte).toNat < 8 ∧ (0 : Byte).toNat < 8 ∧ 256 ≤ (atPc 253).pc.toNat + 3 ∧ 256 ≤ (atPc 254).pc.toNat + 2 ∧
    256 ≤ (stackAtTop 254).pc.toNat + 2 ∧ cellAt (stackAtTop 254) (getReg (stackAtTop 254) 7).toNat ≠ none ∧
    256 ≤ (atPc 255).pc.toNat + 1 ∧ 256 ≤ (atPc 255).pc.toNat + (widthOf 0x00).bytes ∧
    256 ≤ (atPc 253).pc.toNat + (widthOf 0xC0).bytes := by decide

/-- The lowest `pc` without a return address, and the empty stack of reset. -/
theorem witness_StackAndReturnAddressTraps :
    (7 : Byte).toNat < 8 ∧ 256 ≤ (atPc 254).pc.toNat + 2 ∧ cellAt State.reset (getReg State.reset 7).toNat = none := by
  decide

theorem witness_LoadAndArithmeticFrame :
    (∃ t, exec (.ldi 7 1) State.reset = .next t) ∧ (∃ t, exec (.add 0 7) State.reset = .next t) ∧
    ∃ t, exec (.mul 7 7) State.reset = .next t :=
  ⟨answers (by decide), answers (by decide), answers (by decide)⟩

theorem witness_CompareFrame : ∃ t, exec (.cmp 0 7) State.reset = .next t := answers (by decide)

theorem witness_OutputAndNoOpFrame :
    (∃ t, exec (.prn 7) State.reset = .next t) ∧ ∃ t, exec (.unrecognized 0xC0 (.two 9 9)) State.reset = .next t :=
  ⟨answers (by decide), answers (by decide)⟩

theorem witness_PushAndCallFrame :
    (∃ t, exec (.push 7) State.reset = .next t) ∧ ∃ t, exec (.call 7) State.reset = .next t :=
  ⟨answers (by decide), answers (by decide)⟩

theorem witness_PopAndRetFrame :
    (∃ t, exec (.pop 7) (stackAtTop 0) = .next t) ∧ ∃ t, exec .ret (stackAtTop 0) = .next t :=
  ⟨answers (by decide), answers (by decide)⟩

theorem witness_HaltFrame : (∃ t, exec .hlt State.reset = .next t) ∧ ∃ t, exec .hlt (atPc 255) = .next t :=
  ⟨answers (by decide), answers (by decide)⟩

/-- A step that changes the flags. -/
theorem witness_FlagsAreSetByCmpAlone :
    (stepped 0 [0xA7, 0, 1] State.reset).map (fun t => t.flags.e) = some true ∧ State.reset.flags.e = false := by decide

/-- A step that changes a cell. -/
theorem witness_MemoryIsWrittenByPushAndCallAlone :
    (stepped 0 [0x45, 7] State.reset).map (fun t => cellAt t 0xF3) = some (some 0xF3) ∧
    cellAt State.reset 0xF3 = none := by decide

/-- Two states that differ in all that the statement names. -/
theorem witness_UnreadStateHasNoInfluence :
    eraseUnread State.reset =
      eraseUnread { State.reset with
        flags := { e := true, l := true, g := true, fl := 255 }
        latches := { ir := 1, a := 2, b := 3, width := .three }
        out := [9] } := by decide

/-- A halted and a faulted state that meet the invariant, and a step of each. -/
theorem witness_EveryStepKeepsInv :
    Inv haltedState ∧ Inv faultedState ∧ (∃ t, step haltedState = .next t) ∧ ∃ t, step faultedState = .next t :=
  ⟨⟨by decide, rfl, by decide, by decide, by decide⟩, ⟨by decide, rfl, by decide, by decide, by decide⟩,
    answers (by decide), answers (by decide)⟩

end Sys2Proof.Tests
end

/-! # What a meaning changes and what it leaves (family 10_state)

`Completes` lists the completed ends of a meaning, one constructor per instruction; `exec_completes_or_faults` ties it to
`exec`. From it follows one frame lemma per component of the state, and from these the frames, the rules about a whole step,
and the invariant. -/

namespace Sys2Proof.Machine

/-! ## The completed ends of a meaning -/

/-- CMP's outputs reach the flags alone (R54, R59). -/
theorem applyAlu_cmp (r : Fin 8) (x y : Byte) (s : State) :
    applyAlu r (alu aluCmp x y) s = { s with flags := strobeFlags (alu aluCmp x y) s.flags } := by
  simp [applyAlu, alu, aluCmp, aluMul, aluAdd]

/-- The advance's target for the opcode byte `ir` (R48), where it is below 256. -/
def advanceTarget (ir : Byte) (s : State) : Byte :=
  BitVec.ofNat 8 (nextAddress ir s)

/-- The state that the meaning of an instruction ends in from `s` when every check passes, with those checks. -/
inductive Completes (s : State) : Instr → State → Prop where
  | ldi {a imm : Byte} {ra : Fin 8} (ha : a.toNat = ra.val) (hn : nextAddress (opcodeOf .ldi) s < 256) :
      Completes s (.ldi a imm) (setPc (setReg s ra imm) (advanceTarget (opcodeOf .ldi) s))
  | add {a b : Byte} {ra rb : Fin 8} (ha : a.toNat = ra.val) (hb : b.toNat = rb.val)
      (hn : nextAddress (opcodeOf .add) s < 256) :
      Completes s (.add a b)
        (setPc (setReg s ra (BitVec.ofNat 8 (((getReg s ra).toNat + (getReg s rb).toNat) % 256)))
          (advanceTarget (opcodeOf .add) s))
  | mul {a b : Byte} {ra rb : Fin 8} (ha : a.toNat = ra.val) (hb : b.toNat = rb.val)
      (hn : nextAddress (opcodeOf .mul) s < 256) :
      Completes s (.mul a b)
        (setPc (setReg s ra (BitVec.ofNat 8 ((getReg s ra).toNat * (getReg s rb).toNat % 256)))
          (advanceTarget (opcodeOf .mul) s))
  | cmp {a b : Byte} {ra rb : Fin 8} (ha : a.toNat = ra.val) (hb : b.toNat = rb.val)
      (hn : nextAddress (opcodeOf .cmp) s < 256) :
      Completes s (.cmp a b)
        (setPc { s with flags := strobeFlags (alu aluCmp (getReg s ra) (getReg s rb)) s.flags }
          (advanceTarget (opcodeOf .cmp) s))
  | prn {a : Byte} {ra : Fin 8} (ha : a.toNat = ra.val) (hn : nextAddress (opcodeOf .prn) s < 256) :
      Completes s (.prn a) (setPc (emit s (getReg s ra)) (advanceTarget (opcodeOf .prn) s))
  | push {a : Byte} {ra : Fin 8} (ha : a.toNat = ra.val) (hn : nextAddress (opcodeOf .push) s < 256) :
      Completes s (.push a) (setPc (pushByte (fun t => getReg t ra) s) (advanceTarget (opcodeOf .push) s))
  | pop {a v : Byte} {ra : Fin 8} (ha : a.toNat = ra.val) (hv : cellAt s (sp s).toNat = some v)
      (hn : nextAddress (opcodeOf .pop) s < 256) :
      Completes s (.pop a) (setPc (incSp (setReg s ra v)) (advanceTarget (opcodeOf .pop) s))
  | call {a : Byte} {ra : Fin 8} (ha : a.toNat = ra.val) (hn : nextAddress (opcodeOf .call) s < 256) :
      Completes s (.call a)
        (setPc (pushByte (fun _ => advanceTarget (opcodeOf .call) s) s)
          (getReg (pushByte (fun _ => advanceTarget (opcodeOf .call) s) s) ra))
  | ret {v : Byte} (hv : cellAt s (sp s).toNat = some v) : Completes s .ret (incSp (setPc s v))
  | hlt (hn : nextAddress (opcodeOf .hlt) s < 256) :
      Completes s .hlt (setPc (halt s) (advanceTarget (opcodeOf .hlt) s))
  | unrecognized {ir : Byte} {ops : Operands} (hn : nextAddress ir s < 256) :
      Completes s (.unrecognized ir ops) (setPc s (advanceTarget ir s))

/-- An address that passes its check is below 256, and is held as it is (R48, R68). -/
theorem checkAddress_ok {addr : Nat} {p : Byte} (h : checkAddress addr = .ok p) :
    addr < 256 ∧ p = BitVec.ofNat 8 addr := by
  rcases Nat.lt_or_ge addr 256 with hlt | hge
  · rw [checkAddress_of_lt hlt] at h; cases h; exact ⟨hlt, rfl⟩
  · rw [checkAddress_of_ge hge] at h; cases h

/-- One register operand and the advance, where both checks pass. -/
theorem regIndex_bind_advance_ok {a : Byte} {next : Nat} {f : Fin 8 → State} {t : State}
    (h : (regIndex a >>= fun ra => advance next (f ra)) = .ok t) :
    ∃ ra : Fin 8, a.toNat = ra.val ∧ next < 256 ∧ t = setPc (f ra) (BitVec.ofNat 8 next) := by
  obtain ⟨ra, hra, h⟩ := bind_ok h
  exact ⟨ra, regIndex_ok hra, advance_ok h⟩

/-- The end of a step (R49) with what is known of the part that passed its checks. -/
theorem commit_next_cases {P : State → Prop} {s t : State} {result : Except FaultCause State}
    (h : commit s result = .next t) (hok : result = .ok t → P t) : P t ∨ ∃ code, t = enterFault code s :=
  (commit_cases h).imp hok fun ⟨code, _, ht⟩ => ⟨code, ht⟩

/-- All the meaning of an instruction can do: complete, or take a fault entry (R49, R74). -/
theorem exec_completes_or_faults {i : Instr} {s t : State} (h : exec i s = .next t) :
    Completes s i t ∨ ∃ code, t = enterFault code s := by
  cases i with
  | ldi a imm =>
    refine commit_next_cases h fun ho => ?_
    obtain ⟨ra, ha, hn, rfl⟩ := regIndex_bind_advance_ok ho
    exact .ldi ha hn
  | add a b =>
    refine commit_next_cases h fun ho => ?_
    obtain ⟨ra, rb, ha, hb, hn, rfl⟩ := aluInstruction_ok ho
    rw [applyAlu_add]
    exact .add ha hb hn
  | mul a b =>
    refine commit_next_cases h fun ho => ?_
    obtain ⟨ra, rb, ha, hb, hn, rfl⟩ := aluInstruction_ok ho
    rw [applyAlu_mul]
    exact .mul ha hb hn
  | cmp a b =>
    refine commit_next_cases h fun ho => ?_
    obtain ⟨ra, rb, ha, hb, hn, rfl⟩ := aluInstruction_ok ho
    rw [applyAlu_cmp]
    exact .cmp ha hb hn
  | prn a =>
    refine commit_next_cases h fun ho => ?_
    obtain ⟨ra, ha, hn, rfl⟩ := regIndex_bind_advance_ok ho
    exact .prn ha hn
  | push a =>
    refine commit_next_cases h fun ho => ?_
    obtain ⟨ra, ha, hn, rfl⟩ := regIndex_bind_advance_ok ho
    exact .push ha hn
  | pop a =>
    refine commit_next_cases h fun ho => ?_
    obtain ⟨ra, hra, ho⟩ := bind_ok ho
    obtain ⟨v, hv, ho⟩ := bind_ok ho
    obtain ⟨hn, rfl⟩ := advance_ok ho
    exact .pop (regIndex_ok hra) (memRead_ok hv).2 hn
  | call a =>
    refine commit_next_cases h fun ho => ?_
    obtain ⟨ra, hra, ho⟩ := bind_ok ho
    obtain ⟨p, hp, ho⟩ := bind_ok ho
    obtain ⟨hn, rfl⟩ := checkAddress_ok hp
    cases ho
    exact .call (regIndex_ok hra) hn
  | ret =>
    refine commit_next_cases h fun ho => ?_
    obtain ⟨v, hv, ho⟩ := bind_ok ho
    cases ho
    exact .ret (memRead_ok hv).2
  | hlt =>
    refine commit_next_cases h fun ho => ?_
    obtain ⟨hn, rfl⟩ := advance_ok ho
    exact .hlt hn
  | unrecognized ir ops =>
    refine commit_next_cases h fun ho => ?_
    obtain ⟨hn, rfl⟩ := advance_ok ho
    exact .unrecognized hn

/-! ## The frame of a meaning, component by component -/

/-- The indices of the registers that an instruction may write (R10). -/
def writtenRegs : Instr → List Nat
  | .ldi a _ => [a.toNat]
  | .add a _ => [a.toNat]
  | .mul a _ => [a.toNat]
  | .cmp _ _ => []
  | .prn _ => []
  | .push _ => [7]
  | .pop a => [a.toNat, 7]
  | .call _ => [7]
  | .ret => [7]
  | .hlt => []
  | .unrecognized _ _ => []

theorem sameRegsBut_of_regs_eq (written : List Nat) {s t : State} (h : t.regs = s.regs) : sameRegsBut written s t :=
  fun r _ => getReg_congr h r

theorem sameRegsBut_of_regs_set {written : List Nat} {s t : State} {q : Fin 8} {v : Byte}
    (h : t.regs = (setReg s q v).regs) (hq : q.val ∈ written) : sameRegsBut written s t := by
  intro r hr
  have hne : r ≠ q := fun e => hr (e ▸ hq)
  rw [getReg_congr h, getReg_setReg_other _ _ hne]

theorem sameRegsBut_trans {written : List Nat} {s t u : State} (hst : sameRegsBut written s t)
    (htu : sameRegsBut written t u) : sameRegsBut written s u :=
  fun r hr => (htu r hr).trans (hst r hr)

theorem sameRegsBut_cons {written : List Nat} {s t : State} (k : Nat) (h : sameRegsBut written s t) :
    sameRegsBut (k :: written) s t :=
  fun r hr => h r fun hm => hr (List.mem_cons_of_mem k hm)

/-- No register changes but those of `writtenRegs` (R10). -/
theorem exec_sameRegsBut {i : Instr} {s t : State} (h : exec i s = .next t) : sameRegsBut (writtenRegs i) s t := by
  obtain hc | ⟨code, rfl⟩ := exec_completes_or_faults h
  · cases hc with
    | ldi ha | add ha | mul ha => exact sameRegsBut_of_regs_set rfl (by simp [writtenRegs, ha])
    | cmp | prn | hlt | unrecognized => exact sameRegsBut_of_regs_eq _ rfl
    | push | call | ret => exact sameRegsBut_of_regs_set (q := 7) rfl (by simp [writtenRegs])
    | @pop a v ra ha =>
      have hload : sameRegsBut (writtenRegs (.pop a)) s (setReg s ra v) :=
        sameRegsBut_of_regs_set rfl (by simp [writtenRegs, ha])
      exact sameRegsBut_trans hload (sameRegsBut_of_regs_set (q := 7) rfl (by simp [writtenRegs]))
  · exact sameRegsBut_of_regs_eq _ rfl

/-- The latches are written by the step, not by the meaning (R19). -/
theorem exec_latches {i : Instr} {s t : State} (h : exec i s = .next t) : t.latches = s.latches := by
  obtain hc | ⟨code, rfl⟩ := exec_completes_or_faults h
  · cases hc <;> rfl
  · rfl

theorem exec_memInit {i : Instr} {s t : State} (h : exec i s = .next t) : t.memInit = s.memInit := by
  obtain hc | ⟨code, rfl⟩ := exec_completes_or_faults h
  · cases hc <;> rfl
  · rfl

/-- CMP alone writes the flags, by the ALU's strobes (R14, R54). -/
theorem exec_flags {i : Instr} {s t : State} (h : exec i s = .next t) :
    t.flags = s.flags ∨ (∃ a b, i = .cmp a b) ∧ ∃ y, t.flags = strobeFlags y s.flags := by
  obtain hc | ⟨code, rfl⟩ := exec_completes_or_faults h
  · cases hc with
    | cmp => exact .inr ⟨⟨_, _, rfl⟩, _, rfl⟩
    | _ => exact .inl rfl
  · exact .inl rfl

theorem exec_flags_eq {i : Instr} {s t : State} (h : exec i s = .next t) (hi : ∀ a b, i ≠ .cmp a b) :
    t.flags = s.flags :=
  (exec_flags h).resolve_right fun ⟨⟨a, b, e⟩, _⟩ => hi a b e

/-- `FL` is never written (R15). -/
theorem exec_fl {i : Instr} {s t : State} (h : exec i s = .next t) : t.flags.fl = s.flags.fl := by
  obtain e | ⟨-, y, e⟩ := exec_flags h
  · rw [e]
  · rw [e]; rfl

/-- PRN alone writes the output trace, and appends one register's value (R20, R62). -/
theorem exec_out {i : Instr} {s t : State} (h : exec i s = .next t) :
    t.out = s.out ∨ (∃ a, i = .prn a) ∧ ∃ r : Fin 8, t.out = s.out ++ [getReg s r] := by
  obtain hc | ⟨code, rfl⟩ := exec_completes_or_faults h
  · cases hc with
    | @prn a ra => exact .inr ⟨⟨a, rfl⟩, ra, rfl⟩
    | _ => exact .inl rfl
  · exact .inl rfl

theorem exec_out_eq {i : Instr} {s t : State} (h : exec i s = .next t) (hi : ∀ a, i ≠ .prn a) : t.out = s.out :=
  (exec_out h).resolve_right fun ⟨⟨a, e⟩, _⟩ => hi a e

/-- PUSH and CALL alone write memory, one byte at the decremented stack pointer (R22, R65, R68). -/
theorem exec_mem {i : Instr} {s t : State} (h : exec i s = .next t) :
    t.mem = s.mem ∨ ((∃ a, i = .push a) ∨ ∃ a, i = .call a) ∧ ∃ v, t.mem = (memWrite s (sp (decSp s)) v).mem := by
  obtain hc | ⟨code, rfl⟩ := exec_completes_or_faults h
  · cases hc with
    | push => exact .inr ⟨.inl ⟨_, rfl⟩, _, rfl⟩
    | call => exact .inr ⟨.inr ⟨_, rfl⟩, _, rfl⟩
    | _ => exact .inl rfl
  · exact .inl rfl

theorem exec_sameCells {i : Instr} {s t : State} (h : exec i s = .next t) (hpush : ∀ a, i ≠ .push a)
    (hcall : ∀ a, i ≠ .call a) : sameCells s t := by
  obtain hm | ⟨⟨a, e⟩ | ⟨a, e⟩, -⟩ := exec_mem h
  · exact cellAt_congr hm (exec_memInit h)
  · exact absurd e (hpush a)
  · exact absurd e (hcall a)

theorem exec_sameCellsBut {i : Instr} {s t : State} (h : exec i s = .next t) :
    sameCellsBut (sp (decSp s)) s t := by
  intro addr hne
  obtain hm | ⟨-, v, hm⟩ := exec_mem h
  · exact cellAt_congr hm (exec_memInit h) addr
  · have hi : t.memInit = s.memInit := exec_memInit h
    rw [cellAt_congr (s := memWrite s (sp (decSp s)) v) hm hi, cellAt_memWrite, if_neg hne]

/-- A meaning that completes leaves the fault record, and the run state unless it is HLT's (R17, R18). -/
theorem Completes.run_and_record {i : Instr} {s t : State} (hc : Completes s i t) :
    (t.run = s.run ∨ i = .hlt ∧ t.run = .halted) ∧ t.faultCode = s.faultCode ∧ t.faultPc = s.faultPc := by
  cases hc with
  | hlt => exact ⟨.inr ⟨rfl, rfl⟩, rfl, rfl⟩
  | _ => exact ⟨.inl rfl, rfl, rfl⟩

theorem exec_sameRunOrFaulted {i : Instr} {s t : State} (h : exec i s = .next t) (hi : i ≠ .hlt) :
    sameRunOrFaulted s t := by
  obtain hc | hfault := exec_completes_or_faults h
  · obtain ⟨hrun, hrec⟩ := hc.run_and_record
    exact .inl ⟨hrun.resolve_right fun ⟨e, _⟩ => hi e, hrec⟩
  · exact .inr hfault

/-! ## A step -/

theorem step_of_fetch_ok {s : State} {f : Fetched} (hr : s.run = .running) (hf : fetch s = .ok f) :
    step s = latchOutcome f (exec (assemble f.ir f.ops) s) := by
  simp [step, hr, hf]

theorem step_of_fetch_error {s : State} {code : FaultCause} (hr : s.run = .running) (hf : fetch s = .error code) :
    step s = .next (enterFault code s) := by
  simp [step, hr, hf]

theorem step_of_not_running {s : State} (hr : s.run ≠ .running) : step s = .next s := by
  cases h : s.run with
  | running => exact absurd h hr
  | halted | faulted => simp [step, h]

theorem exec_next (i : Instr) (s : State) : ∃ t, exec i s = .next t := by
  cases i <;> exact commit_next s _

/-- A step always answers a next state (R50). -/
theorem step_next (s : State) : ∃ t, step s = .next t := by
  by_cases hr : s.run = .running
  · cases hf : fetch s with
    | error code => exact ⟨_, step_of_fetch_error hr hf⟩
    | ok f =>
      obtain ⟨t, ht⟩ := exec_next (assemble f.ir f.ops) s
      rw [step_of_fetch_ok hr hf, ht]
      by_cases hrun : t.run = .faulted
      · exact ⟨_, latchOutcome_faulted f hrun⟩
      · exact ⟨_, latchOutcome_completed f hrun⟩
  · exact ⟨s, step_of_not_running hr⟩

/-! ## The instruction that a step runs -/

theorem currentOpcode_of_running {s : State} (h : s.run = .running) : currentOpcode s = cellAt s s.pc.toNat := by
  simp [currentOpcode, h]

theorem assemble_opcode {ir : Byte} {ops : Operands} (hw : ops.width = widthOf ir) :
    (assemble ir ops).opcode = ir := by
  obtain ⟨-, e⟩ | ⟨op, e, ho⟩ := assemble_cases ir ops hw
  · rw [e]; rfl
  · exact (assembleOp_some ops op _ ho).1.trans e.symm

theorem fetch_ops_width {s : State} {f : Fetched} (h : fetch s = .ok f) : f.ops.width = widthOf f.ir := by
  obtain ⟨-, ⟨hw, ho⟩ | ⟨a, hw, ho, -⟩ | ⟨a, b, hw, ho, -⟩⟩ := fetch_ok h <;> rw [hw, ho] <;> rfl

/-- All a step can do, in terms of the instruction whose opcode byte is at `pc`: stay outside RUNNING, take the fault of the
fetch, or run the instruction's meaning and then write the latches. -/
theorem step_cases_instr {s u : State} (h : step s = .next u) :
    u = s ∨ s.run = .running ∧ ((∃ code, u = enterFault code s) ∨
      ∃ i t, currentOpcode s = some i.opcode ∧ exec i s = .next t ∧ u = { t with latches := u.latches }) := by
  obtain ⟨-, e⟩ | ⟨hr, code, -, e⟩ | ⟨hr, f, t, hf, ht, e⟩ := step_cases h
  · exact .inl e
  · exact .inr ⟨hr, .inl ⟨code, e⟩⟩
  · have hop : currentOpcode s = some (assemble f.ir f.ops).opcode := by
      rw [currentOpcode_of_running hr, assemble_opcode (fetch_ops_width hf), (fetch_ok hf).1]
    exact .inr ⟨hr, .inr ⟨_, t, hop, ht, e⟩⟩

end Sys2Proof.Machine

/-! # Nothing reads the flags, the latches or the output

A step from the state without them ends, without them, where the step from the state itself ends. -/

namespace Sys2Proof.Machine

/-- An outcome without what no instruction reads in its next state. -/
def eraseOutcome : Host.Outcome State Fault Refusal → Host.Outcome State Fault Refusal
  | .next t => .next (eraseUnread t)
  | .fault r => .fault r
  | .refused r => .refused r

theorem eraseOutcome_commit_advance (next : Nat) {s u v : State} (h : eraseUnread u = eraseUnread v) :
    eraseOutcome (commit (eraseUnread s) (advance next u)) = eraseOutcome (commit s (advance next v)) := by
  rcases Nat.lt_or_ge next 256 with hlt | hge
  · rw [advance_of_lt u hlt, advance_of_lt v hlt]
    exact congrArg (fun w => Host.Outcome.next (setPc w (BitVec.ofNat 8 next))) h
  · rw [advance_of_ge u hge, advance_of_ge v hge]
    rfl

/-- A check that does not read what is erased, before parts that agree. -/
theorem eraseOutcome_commit_bind {α : Type} {s : State} (x : Except FaultCause α)
    {f g : α → Except FaultCause State}
    (h : ∀ a, eraseOutcome (commit (eraseUnread s) (f a)) = eraseOutcome (commit s (g a))) :
    eraseOutcome (commit (eraseUnread s) (x >>= f)) = eraseOutcome (commit s (x >>= g)) := by
  cases x with
  | error code => rfl
  | ok a => exact h a

theorem eraseUnread_applyAlu (dest : Fin 8) (y : AluOut) (s : State) :
    eraseUnread (applyAlu dest y (eraseUnread s)) = eraseUnread (applyAlu dest y s) := by
  unfold applyAlu
  split <;> rfl

theorem eraseOutcome_commit_aluInstruction (op : Op) (selector : BitVec 2) (a b : Byte) (s : State) :
    eraseOutcome (commit (eraseUnread s) (aluInstruction op selector a b (eraseUnread s))) =
      eraseOutcome (commit s (aluInstruction op selector a b s)) :=
  eraseOutcome_commit_bind (regIndexPair a b) fun _ => eraseOutcome_commit_advance _ (eraseUnread_applyAlu _ _ s)

/-- The meaning of an instruction does not read the flags, the latches or the output. -/
theorem eraseOutcome_exec (i : Instr) (s : State) :
    eraseOutcome (exec i (eraseUnread s)) = eraseOutcome (exec i s) := by
  cases i with
  | add a b | mul a b | cmp a b => exact eraseOutcome_commit_aluInstruction _ _ a b s
  | ldi a _ | prn a | push a =>
    exact eraseOutcome_commit_bind (regIndex a) fun _ => eraseOutcome_commit_advance _ rfl
  | pop a =>
    exact eraseOutcome_commit_bind (regIndex a) fun _ =>
      eraseOutcome_commit_bind (memRead s (sp s).toNat) fun _ => eraseOutcome_commit_advance _ rfl
  | call a =>
    exact eraseOutcome_commit_bind (regIndex a) fun _ =>
      eraseOutcome_commit_bind (checkAddress (nextAddress (opcodeOf .call) s)) fun _ => rfl
  | ret => exact eraseOutcome_commit_bind (memRead s (sp s).toNat) fun _ => rfl
  | hlt => exact eraseOutcome_commit_advance _ rfl
  | unrecognized ir ops => exact eraseOutcome_commit_advance _ rfl

theorem eraseOutcome_latchOutcome (f : Fetched) (o : Host.Outcome State Fault Refusal) :
    eraseOutcome (latchOutcome f o) = eraseOutcome o := by
  cases o with
  | next t =>
    by_cases hr : t.run = .faulted
    · rw [latchOutcome_faulted f hr]
    · rw [latchOutcome_completed f hr]; rfl
  | fault r => rfl
  | refused r => rfl

/-- A step does not read the flags, the latches or the output. -/
theorem eraseOutcome_step (s : State) : eraseOutcome (step (eraseUnread s)) = eraseOutcome (step s) := by
  have hrun : (eraseUnread s).run = s.run := rfl
  have hfetch : fetch (eraseUnread s) = fetch s := rfl
  by_cases hr : s.run = .running
  · cases hf : fetch s with
    | error code =>
      rw [step_of_fetch_error hr hf, step_of_fetch_error (hrun.trans hr) (hfetch.trans hf)]
      rfl
    | ok f =>
      rw [step_of_fetch_ok hr hf, step_of_fetch_ok (hrun.trans hr) (hfetch.trans hf), eraseOutcome_latchOutcome,
        eraseOutcome_latchOutcome, eraseOutcome_exec]
  · rw [step_of_not_running hr, step_of_not_running (s := eraseUnread s) hr]
    rfl

/-- Settles O55: both states step to what the one state without flags, latches and output steps to. -/
theorem unreadStateHasNoInfluence : Obligations.UnreadStateHasNoInfluence := by
  intro s t hst
  obtain ⟨s', hs⟩ := step_next s
  obtain ⟨t', ht⟩ := step_next t
  refine ⟨s', t', hs, ht, ?_⟩
  have hnext : Host.Outcome.next (eraseUnread s') = (.next (eraseUnread t') : Host.Outcome State Fault Refusal) := by
    calc eraseOutcome (.next s')
      _ = eraseOutcome (step (eraseUnread s)) := by rw [eraseOutcome_step, hs]
      _ = eraseOutcome (step (eraseUnread t)) := by rw [hst]
      _ = eraseOutcome (.next t') := by rw [eraseOutcome_step, ht]
  exact Host.Outcome.next.inj hnext

end Sys2Proof.Machine

/-! # The invariant -/

namespace Sys2Proof.Machine

/-- The fault entry writes the record that `Inv` asks for in FAULTED (R74). -/
theorem inv_enterFault {s : State} (code : FaultCause) (hi : Inv s) : Inv (enterFault code s) := by
  obtain ⟨hwf, hfl, -, -, -⟩ := hi
  exact ⟨hwf, hfl, fun _ => ⟨nofun, rfl⟩, fun h => absurd rfl h, nofun⟩

/-- `Inv` does not speak of the latches. -/
theorem inv_latches {s : State} (l : Latches) (hi : Inv s) : Inv { s with latches := l } := hi

theorem exec_mem_wf {i : Instr} {s t : State} (h : exec i s = .next t) (hwf : Memory.wf s.memInit s.mem) :
    Memory.wf t.memInit t.mem := by
  rw [exec_memInit h]
  obtain hm | ⟨-, v, hm⟩ := exec_mem h
  · rwa [hm]
  · rw [hm]
    exact write_wf _ v (toNat_lt_memSize _) hwf

/-- Where HLT's advance fits, it moves `pc` by one without wrapping (R48, R70). -/
theorem advanceTarget_hlt_toNat {s : State} (hn : nextAddress (opcodeOf .hlt) s < 256) :
    (advanceTarget (opcodeOf .hlt) s).toNat = s.pc.toNat + 1 := by
  rw [advanceTarget, BitVec.toNat_ofNat, Nat.mod_eq_of_lt hn]
  simp [nextAddress, Width.bytes]

/-- A completed HLT stands one past its own byte (R70). -/
theorem Completes.hlt_pc {s t : State} (hc : Completes s .hlt t) (hop : cellAt s s.pc.toNat = some (opcodeOf .hlt)) :
    0 < t.pc.toNat ∧ cellAt t (t.pc.toNat - 1) = some (opcodeOf .hlt) := by
  cases hc with
  | hlt hn =>
    rw [setPc_pc, advanceTarget_hlt_toNat hn]
    exact ⟨Nat.succ_pos _, hop⟩

/-- The meaning of the instruction at `pc` keeps the invariant. -/
theorem exec_inv {i : Instr} {s t : State} (hr : s.run = .running) (hop : currentOpcode s = some i.opcode)
    (h : exec i s = .next t) (hi : Inv s) : Inv t := by
  obtain hc | ⟨code, rfl⟩ := exec_completes_or_faults h
  · obtain ⟨hwf, hfl, -, hrec, -⟩ := hi
    obtain ⟨hcode, hpc⟩ := hrec (by simp [hr])
    obtain ⟨hrun, hcode', hpc'⟩ := hc.run_and_record
    refine ⟨exec_mem_wf h hwf, (exec_fl h).trans hfl, fun hf => ?_,
      fun _ => ⟨hcode'.trans hcode, hpc'.trans hpc⟩, fun hh => ?_⟩
    · simp [hr, hf] at hrun
    · obtain e | ⟨rfl, -⟩ := hrun
      · simp [hr, hh] at e
      · exact hc.hlt_pc ((currentOpcode_of_running hr).symm.trans hop)
  · exact inv_enterFault code hi

/-- Settles O57, by the ways a step can end. -/
theorem everyStepKeepsInv : Obligations.EveryStepKeepsInv := by
  intro s u hi h
  obtain rfl | ⟨hr, ⟨code, rfl⟩ | ⟨i, t, hop, ht, e⟩⟩ := step_cases_instr h
  · exact hi
  · exact inv_enterFault code hi
  · rw [e]
    exact inv_latches _ (exec_inv hr hop ht hi)

/-- Settles O56. -/
theorem resetMeetsInv : Obligations.ResetMeetsInv :=
  ⟨reset_mem_wf, rfl, nofun, fun _ => ⟨rfl, rfl⟩, nofun⟩

end Sys2Proof.Machine

/-! # Terminal states, output, flags, frames and reset values -/

namespace Sys2Proof.Machine

theorem stateAfter_of_step_self {s : State} (h : step s = .next s) (n : Nat) : stateAfter n s = s := by
  induction n with
  | zero => rfl
  | succ n ih => rw [stateAfter, ih, h]

/-- Settles O20. -/
theorem terminalStatesStay : Obligations.TerminalStatesStay :=
  fun _ hr => ⟨step_of_not_running hr, stateAfter_of_step_self (step_of_not_running hr)⟩

/-- Settles O31, from `exec_out`. -/
theorem outputGrowsByPrnAlone : Obligations.OutputGrowsByPrnAlone := by
  intro s u h
  obtain rfl | ⟨-, ⟨code, rfl⟩ | ⟨i, t, hop, ht, e⟩⟩ := step_cases_instr h
  · exact .inl rfl
  · exact .inl rfl
  · rw [e]
    obtain ho | ⟨⟨a, rfl⟩, r, ho⟩ := exec_out ht
    · exact .inl ho
    · exact .inr ⟨hop, r, ho⟩

/-- A step leaves the flags, or is CMP's and strobes them (R14, R54). -/
theorem step_flags {s u : State} (h : step s = .next u) :
    u.flags = s.flags ∨ currentOpcode s = some (opcodeOf .cmp) ∧ ∃ y, u.flags = strobeFlags y s.flags := by
  obtain rfl | ⟨-, ⟨code, rfl⟩ | ⟨i, t, hop, ht, e⟩⟩ := step_cases_instr h
  · exact .inl rfl
  · exact .inl rfl
  · rw [e]
    obtain hf | ⟨⟨a, b, rfl⟩, y, hf⟩ := exec_flags ht
    · exact .inl hf
    · exact .inr ⟨hop, y, hf⟩

/-- Settles O53: a strobe is or-ed to its flag, so none is cleared. -/
theorem flagsAreSetByCmpAlone : Obligations.FlagsAreSetByCmpAlone := by
  intro s u h
  obtain hf | ⟨hop, y, hf⟩ := step_flags h
  · simp [hf]
  · exact ⟨fun _ => hop, by simp +contextual [hf, strobeFlags]⟩

/-- Settles O47. -/
theorem loadAndArithmeticFrame : Obligations.LoadAndArithmeticFrame := by
  intro s t a b h
  rcases h with h | h | h <;>
    exact ⟨exec_sameRegsBut h, exec_flags_eq h nofun, exec_latches h, exec_out_eq h nofun, exec_memInit h,
      exec_sameCells h nofun nofun, exec_sameRunOrFaulted h nofun⟩

/-- Settles O48. -/
theorem compareFrame : Obligations.CompareFrame :=
  fun _ _ _ _ h =>
    ⟨exec_sameRegsBut h, exec_fl h, exec_latches h, exec_out_eq h nofun, exec_memInit h, exec_sameCells h nofun nofun,
      exec_sameRunOrFaulted h nofun⟩

/-- Settles O49. -/
theorem outputAndNoOpFrame : Obligations.OutputAndNoOpFrame := by
  intro s t a ir ops h
  rcases h with h | h <;>
    exact ⟨exec_sameRegsBut h, exec_flags_eq h nofun, exec_latches h, exec_memInit h, exec_sameCells h nofun nofun,
      exec_sameRunOrFaulted h nofun, fun hu => exec_out_eq hu nofun⟩

/-- Settles O50. -/
theorem pushAndCallFrame : Obligations.PushAndCallFrame := by
  intro s t a h
  rcases h with h | h <;>
    exact ⟨exec_sameRegsBut h, exec_flags_eq h nofun, exec_latches h, exec_out_eq h nofun, exec_memInit h,
      exec_sameCellsBut h, exec_sameRunOrFaulted h nofun⟩

/-- Settles O51. -/
theorem popAndRetFrame : Obligations.PopAndRetFrame := by
  intro s t a h
  have hregs : sameRegsBut [a.toNat, 7] s t :=
    h.elim exec_sameRegsBut fun hret => sameRegsBut_cons a.toNat (exec_sameRegsBut hret)
  rcases h with h | h <;>
    exact ⟨hregs, exec_sameRegsBut, exec_flags_eq h nofun, exec_latches h, exec_out_eq h nofun, exec_memInit h,
      exec_sameCells h nofun nofun, exec_sameRunOrFaulted h nofun⟩

/-- HLT's one check is its advance (R48, R70). -/
theorem exec_hlt_cases {s t : State} (h : exec .hlt s = .next t) :
    t = setPc (halt s) (advanceTarget (opcodeOf .hlt) s) ∨ t = enterFault .invalidAddress s := by
  have hend : commit s (advance (nextAddress (opcodeOf .hlt) s) (halt s)) = .next t := h
  obtain ⟨-, e⟩ | ⟨-, e⟩ := advance_cases (nextAddress (opcodeOf .hlt) s) (halt s)
  · rw [e] at hend; cases hend; exact .inl rfl
  · rw [e] at hend; cases hend; exact .inr rfl

/-- Settles O52. -/
theorem haltFrame : Obligations.HaltFrame := by
  intro s t h
  have hend : (t.run = .halted ∧ t.faultCode = s.faultCode ∧ t.faultPc = s.faultPc) ∨
      t = enterFault .invalidAddress s :=
    (exec_hlt_cases h).imp_left fun e => by rw [e]; exact ⟨rfl, rfl, rfl⟩
  exact ⟨exec_sameRegsBut h, exec_flags_eq h nofun, exec_latches h, exec_out_eq h nofun, exec_memInit h,
    exec_sameCells h nofun nofun, hend⟩

/-- Settles O1: the eight registers of `State.reset`. -/
theorem resetRegisterValues : Obligations.ResetRegisterValues := by
  unfold Obligations.ResetRegisterValues
  decide

/-- Settles O2: the fields of `State.reset`. -/
theorem resetLeavesTheRestAsStated : Obligations.ResetLeavesTheRestAsStated :=
  ⟨rfl, rfl, rfl, rfl, rfl, rfl⟩

end Sys2Proof.Machine

/-! # Memory: one written cell, the loaded image, and which steps write (family 20_memory) -/

namespace Sys2Proof.Machine

/-! ## One written cell -/

theorem cellAt_memWrite_same (s : State) (addr v : Byte) : cellAt (memWrite s addr v) addr.toNat = some v := by
  rw [cellAt_memWrite, if_pos rfl]

theorem cellAt_memWrite_other (s : State) {addr : Byte} (v : Byte) {other : Nat} (h : other ≠ addr.toNat) :
    cellAt (memWrite s addr v) other = cellAt s other := by
  rw [cellAt_memWrite, if_neg h]

/-- Settles O7: the byte address is below 256, so the read of the written cell passes its checks. -/
theorem memWriteSetsOneCell : Obligations.MemWriteSetsOneCell :=
  fun s addr v =>
    ⟨memRead_of_some addr.isLt (cellAt_memWrite_same s addr v), fun _ hne => cellAt_memWrite_other s v hne, rfl⟩

/-! ## Which steps write memory -/

/-- A meaning leaves a cell as it was, or is PUSH's or CALL's and stores a byte at the decremented SP (R65, R68). -/
theorem exec_cellAt {i : Instr} {s t : State} (h : exec i s = .next t) (addr : Nat) :
    cellAt t addr = cellAt s addr ∨
      ((∃ a, i = .push a) ∨ ∃ a, i = .call a) ∧ addr = (getReg s 7 - 1).toNat ∧ ∃ v, cellAt t addr = some v := by
  by_cases haddr : addr = (sp (decSp s)).toNat
  · have hinit : t.memInit = s.memInit := exec_memInit h
    obtain hm | ⟨hi, v, hm⟩ := exec_mem h
    · exact .inl (cellAt_congr hm hinit addr)
    · have hcell : cellAt t addr = some v := by
        rw [cellAt_congr (s := memWrite s (sp (decSp s)) v) hm hinit, haddr, cellAt_memWrite_same]
      exact .inr ⟨hi, by rw [haddr, sp_decSp], v, hcell⟩
  · exact .inl (exec_sameCellsBut h addr haddr)

/-- A step leaves a cell as it was, or its opcode byte is PUSH's or CALL's and it stores a byte at the decremented SP
(R22, R25). -/
theorem step_cellAt {s u : State} (h : step s = .next u) (addr : Nat) :
    cellAt u addr = cellAt s addr ∨
      (currentOpcode s = some (opcodeOf .push) ∨ currentOpcode s = some (opcodeOf .call)) ∧
        addr = (getReg s 7 - 1).toNat ∧ ∃ v, cellAt u addr = some v := by
  obtain rfl | ⟨-, ⟨code, rfl⟩ | ⟨i, t, hop, ht, e⟩⟩ := step_cases_instr h
  · exact .inl rfl
  · exact .inl rfl
  · rw [e]
    obtain hc | ⟨⟨a, rfl⟩ | ⟨a, rfl⟩, hstored⟩ := exec_cellAt ht addr
    · exact .inl hc
    · exact .inr ⟨.inl hop, hstored⟩
    · exact .inr ⟨.inr hop, hstored⟩

theorem step_memInit {s u : State} (h : step s = .next u) : u.memInit = s.memInit := by
  obtain rfl | ⟨-, ⟨code, rfl⟩ | ⟨i, t, -, ht, e⟩⟩ := step_cases_instr h
  · rfl
  · rfl
  · have hinit : t.memInit = s.memInit := exec_memInit ht
    rw [e, ← hinit]

/-- Settles O54: a cell that a step writes then holds the byte stored, so no cell loses its value. -/
theorem memoryIsWrittenByPushAndCallAlone : Obligations.MemoryIsWrittenByPushAndCallAlone := by
  intro s u h addr
  obtain hc | ⟨hop, haddr, v, hv⟩ := step_cellAt h addr
  · exact ⟨fun hne => absurd hc hne, fun hs => hc ▸ hs, step_memInit h⟩
  · exact ⟨fun _ => ⟨hop, haddr⟩, fun _ => by simp [hv], step_memInit h⟩

/-! ## A pushed byte over the next instruction -/

/-- PUSH where its checks pass (R65). -/
theorem exec_push_of_lt {s : State} {a : Byte} {ra : Fin 8} (ha : a.toNat = ra.val)
    (hn : nextAddress (opcodeOf .push) s < 256) :
    exec (.push a) s = .next (setPc (pushByte (fun t => getReg t ra) s) (advanceTarget (opcodeOf .push) s)) := by
  calc exec (.push a) s
    _ = commit s (regIndex a >>= fun r =>
          advance (nextAddress (opcodeOf .push) s) (pushByte (fun t => getReg t r) s)) := rfl
    _ = _ := by rw [regIndex_of_lt ra ha, ok_bind, advance_of_lt _ hn, commit_ok]; rfl

theorem nextAddress_push (s : State) : nextAddress (opcodeOf .push) s = s.pc.toNat + 2 := rfl

theorem advanceTarget_push (s : State) : advanceTarget (opcodeOf .push) s = s.pc + 2 := by
  rw [advanceTarget, nextAddress_push, ofNat_toNat_add]
  rfl

/-- Settles O37: SP - 1 is the new `pc`, and the byte stored there is the register's, which the decrement left alone. -/
theorem pushedByteIsFetchedNext : Obligations.PushedByteIsFetchedNext := by
  intro s a ra hr ha hpc hsp hra
  have hsp' : sp (decSp s) = s.pc + 2 := by rw [sp_decSp, hsp]; bv_omega
  refine ⟨_, exec_push_of_lt ha hpc, ?_⟩
  calc currentOpcode (setPc (pushByte (fun t => getReg t ra) s) (advanceTarget (opcodeOf .push) s))
    _ = cellAt (pushByte (fun t => getReg t ra) s) (advanceTarget (opcodeOf .push) s).toNat :=
        currentOpcode_of_running hr
    _ = some (getReg (decSp s) ra) := by rw [cellAt_pushByte, hsp', advanceTarget_push, if_pos rfl]
    _ = some (getReg s ra) := by rw [getReg_decSp, if_neg hra]

/-! ## The loaded image -/

/-- Placing an image writes memory alone (R87). -/
theorem placeImage_eq_with_mem (addr : Nat) (bytes : List Byte) (s : State) :
    placeImage addr bytes s = { s with mem := (placeImage addr bytes s).mem } := by
  induction bytes generalizing addr s with
  | nil => rfl
  | cons b rest ih => exact ih (addr + 1) (memWrite s (BitVec.ofNat 8 addr) b)

/-- The cells below the image and past it are left as they were. -/
theorem cellAt_placeImage_outside {addr k : Nat} {bytes : List Byte} (s : State) (hfit : addr + bytes.length ≤ 256)
    (hk : k < addr ∨ addr + bytes.length ≤ k) : cellAt (placeImage addr bytes s) k = cellAt s k := by
  induction bytes generalizing addr s with
  | nil => rfl
  | cons b rest ih =>
    rw [List.length_cons] at hfit hk
    have hne : k ≠ (BitVec.ofNat 8 addr).toNat := by rw [BitVec.toNat_ofNat]; omega
    rw [placeImage, ih _ (by omega) (by omega), cellAt_memWrite_other s b hne]

/-- The `k`-th byte of an image stands `k` cells after its first address. -/
theorem cellAt_placeImage_inside {addr k : Nat} {bytes : List Byte} {v : Byte} (s : State)
    (hfit : addr + bytes.length ≤ 256) (hk : bytes[k]? = some v) :
    cellAt (placeImage addr bytes s) (addr + k) = some v := by
  induction bytes generalizing addr k s with
  | nil => simp at hk
  | cons b rest ih =>
    rw [List.length_cons] at hfit
    cases k with
    | zero =>
      obtain rfl : b = v := by simpa using hk
      have haddr : addr = (BitVec.ofNat 8 addr).toNat := by rw [BitVec.toNat_ofNat]; omega
      rw [placeImage, cellAt_placeImage_outside _ (by omega) (by omega), Nat.add_zero, cellAt_memWrite, if_pos haddr]
    | succ k =>
      rw [placeImage, Nat.add_comm k 1, ← Nat.add_assoc]
      exact ih _ (by omega) (by simpa using hk)

theorem imageFits_of_le {image : List Nat} (hlen : image.length ≤ 256) (hbytes : ∀ v ∈ image, v < 256) :
    imageFits image = true := by
  rw [imageFits, Bool.and_eq_true, decide_eq_true_eq, List.all_eq_true]
  exact ⟨hlen, fun v hv => decide_eq_true (hbytes v hv)⟩

/-- Boot of an image that fits (R87, R88). -/
theorem boot_of_fits {image : List Nat} (mi : MemInit) (h : imageFits image = true) :
    boot mi image = some (placeImage 0 (image.map (BitVec.ofNat 8)) (coldState mi)) := by
  rw [boot, if_pos h]

/-- Memory before the load, by the parameter `MEM_INIT` (R23, D6). -/
theorem cellAt_coldState (mi : MemInit) (k : Nat) :
    cellAt (coldState mi) k = if k < 256 ∧ (mi = .fullZero ∨ k < 8) then some 0 else none := by
  have hcell : cellAt (coldState mi) k = initialCell mi k := rfl
  rw [hcell, initialCell.eq_def]
  rcases Nat.lt_or_ge k 256 with hlt | hge
  · have hin : ¬ Config.memSize ≤ k := Nat.not_le.mpr hlt
    cases mi with
    | fullZero => simp [hin, hlt]
    | partialClear => by_cases hclear : k < 8 <;> simp [hin, hlt, hclear, Config.clearedCells]
  · simp [Config.memSize, hge, Nat.not_lt.mpr hge]

/-- Settles O4: the loaded cells are the image's bytes, and the cells past it are those of the cold state. -/
theorem bootPlacesTheImage : Obligations.BootPlacesTheImage := by
  intro mi image hlen hbytes
  have hfit : 0 + (image.map (BitVec.ofNat 8)).length ≤ 256 := by simpa using hlen
  refine ⟨_, boot_of_fits mi (imageFits_of_le hlen hbytes), fun k v hv => ?_, fun k hk => ?_, ?_⟩
  · have hv' : (image.map (BitVec.ofNat 8))[k]? = some (BitVec.ofNat 8 v) := by simp [hv]
    simpa using cellAt_placeImage_inside (coldState mi) hfit hv'
  · rw [cellAt_placeImage_outside (coldState mi) hfit (.inr (by simpa using hk)), cellAt_coldState]
  · exact placeImage_eq_with_mem 0 (image.map (BitVec.ofNat 8)) (coldState mi)

end Sys2Proof.Machine

/-! # Decode and encode undo each other (family 30_encoding)

`decode_eq_ok_iff` says once what `decode` answers: the first byte assembled with as many operand bytes as its width asks
for. The two round trips then are that a well-formed instruction assembles from its own opcode byte and operands, and that
what assembles is well formed and has those bytes. -/

namespace Sys2Proof.Machine

/-! ## What decodes -/

/-- `decode` of bytes that are not empty, by the operands that its first byte's width takes (R34, R45). -/
theorem decode_of_takeOperands {ir : Byte} {bytes rest : List Byte} {ops : Operands}
    (h : takeOperands (widthOf ir) bytes = .ok (ops, rest)) : decode (ir :: bytes) = .ok (assemble ir ops, rest) := by
  rw [decode, h]

/-- Bytes decode exactly as an opcode byte, the operand bytes of its width, and a rest (R33, R34, R45). -/
theorem decode_eq_ok_iff {bytes rest : List Byte} {i : Instr} :
    decode bytes = .ok (i, rest) ↔
      ∃ ir ops, ops.width = widthOf ir ∧ bytes = ir :: (ops.toList ++ rest) ∧ i = assemble ir ops := by
  constructor
  · intro h
    cases bytes with
    | nil => cases h
    | cons ir bytes =>
      cases ht : takeOperands (widthOf ir) bytes with
      | error e => rw [decode, ht] at h; cases h
      | ok taken =>
        obtain ⟨ops, left⟩ := taken
        obtain ⟨hw, rfl⟩ := takeOperands_ok ht
        rw [decode_of_takeOperands ht] at h
        cases h
        exact ⟨ir, ops, hw, rfl, rfl⟩
  · rintro ⟨ir, ops, hw, rfl, rfl⟩
    exact decode_of_takeOperands (takeOperands_toList (widthOf ir) ops rest hw)

/-! ## Well-formed instructions and what assembles -/

theorem wellFormed_unrecognized_iff (ir : Byte) (ops : Operands) :
    (Instr.unrecognized ir ops).wellFormed = true ↔ opOf ir = none ∧ ops.width = widthOf ir := by
  simp [Instr.wellFormed, eq_comm (a := ops.width)]

/-- A well-formed instruction carries as many operand bytes as its opcode byte's width asks for (R34, R39). -/
theorem operands_width_of_wellFormed {i : Instr} (h : i.wellFormed = true) : i.operands.width = widthOf i.opcode := by
  cases i with
  | unrecognized ir ops => exact ((wellFormed_unrecognized_iff ir ops).mp h).2
  | _ => simp [Instr.operands, Operands.width, Instr.opcode]

/-- A well-formed instruction is what its opcode byte and operands assemble to (R38, R40). -/
theorem assemble_opcode_operands {i : Instr} (h : i.wellFormed = true) : assemble i.opcode i.operands = i := by
  cases i with
  | unrecognized ir ops =>
    have hnone : opOf ir = none := ((wellFormed_unrecognized_iff ir ops).mp h).1
    simp [assemble, Instr.opcode, Instr.operands, hnone]
  | _ => rfl

/-- With the operands of its format an assigned opcode makes its own constructor, which is well formed; with others it
makes none (R38, R39). -/
theorem wellFormed_of_assembleOp {op : Op} {ops : Operands} {i : Instr} (h : assembleOp op ops = some i) :
    i.wellFormed = true := by
  cases op <;> cases ops <;> cases h <;> rfl

theorem assemble_wellFormed {ir : Byte} {ops : Operands} (hw : ops.width = widthOf ir) :
    (assemble ir ops).wellFormed = true := by
  obtain ⟨hnone, e⟩ | ⟨op, -, ho⟩ := assemble_cases ir ops hw
  · rw [e]
    exact (wellFormed_unrecognized_iff ir ops).mpr ⟨hnone, hw⟩
  · exact wellFormed_of_assembleOp ho

theorem assemble_operands {ir : Byte} {ops : Operands} (hw : ops.width = widthOf ir) :
    (assemble ir ops).operands = ops := by
  obtain ⟨-, e⟩ | ⟨op, -, ho⟩ := assemble_cases ir ops hw
  · rw [e]; rfl
  · exact (assembleOp_some ops op _ ho).2

/-- The bytes of an assembled instruction are those it was assembled from (R33). -/
theorem encode_assemble {ir : Byte} {ops : Operands} (hw : ops.width = widthOf ir) :
    encode (assemble ir ops) = ir :: ops.toList := by
  rw [encode, assemble_opcode hw, assemble_operands hw]

/-! ## The round trips -/

/-- Settles O12. -/
theorem decodeUndoesEncode : Obligations.DecodeUndoesEncode :=
  fun i _ h =>
    decode_eq_ok_iff.mpr
      ⟨i.opcode, i.operands, operands_width_of_wellFormed h, rfl, (assemble_opcode_operands h).symm⟩

/-- Settles O13. -/
theorem encodeUndoesDecode : Obligations.EncodeUndoesDecode := by
  intro bytes rest i h
  obtain ⟨ir, ops, hw, rfl, rfl⟩ := decode_eq_ok_iff.mp h
  exact ⟨assemble_wellFormed hw, by rw [encode_assemble hw, List.cons_append]⟩

/-! ## Widths, the opcode map and single words -/

/-- Two bytes are enough operands for every width, and the width says how many are left (R34, R45). -/
theorem takeOperands_cons_cons (w : Width) (ir a b : Byte) (rest : List Byte) :
    ∃ ops, takeOperands w (a :: b :: rest) = .ok (ops, (ir :: a :: b :: rest).drop w.bytes) := by
  cases w with
  | one => exact ⟨.none, rfl⟩
  | two => exact ⟨.one a, rfl⟩
  | three => exact ⟨.two a b, rfl⟩

/-- Settles O14. -/
theorem everyByteDecodes : Obligations.EveryByteDecodes := by
  intro ir a b rest
  obtain ⟨ops, h⟩ := takeOperands_cons_cons (widthOf ir) ir a b rest
  exact ⟨_, _, decode_of_takeOperands h, rfl⟩

/-- Settles O8, by bit 7 first and then bit 6. -/
theorem widthFromTopTwoBits : Obligations.WidthFromTopTwoBits := by
  intro ir
  unfold widthOf
  split
  · rfl
  · split <;> rfl

/-- The opcode table is `opcodeOf` read backwards (R38, R40). -/
theorem opOf_eq_some_iff {ir : Byte} {op : Op} : opOf ir = some op ↔ ir = opcodeOf op :=
  ⟨opcodeOf_of_opOf, fun h => h ▸ opOf_opcodeOf op⟩

/-- Settles O9: one row of the map for each opcode. -/
theorem opcodeMapIsExact : Obligations.OpcodeMapIsExact := by
  intro ir op
  rw [opOf_eq_some_iff]
  cases op <;> simp [opcodeOf]

/-- Settles O11: each word is evaluated. -/
theorem wordsOfTheTableDecode : Obligations.WordsOfTheTableDecode := by
  unfold Obligations.WordsOfTheTableDecode
  and_intros <;> rfl

end Sys2Proof.Machine

/-! # The step (family 40_execution_cycle)

What a fetch answers when one of its checks fails and when all pass, all the ways a step from RUNNING can end, and what a
meaning answers when its register check or its advance fails. -/

namespace Sys2Proof.Machine

/-! ## A fetch that fails (R44, R45, R75) -/

/-- After a read opcode byte, the operand fetch decides the fetch (R43, R45). -/
theorem fetch_of_opcode {s : State} {ir : Byte} (hop : cellAt s s.pc.toNat = some ir) :
    fetch s = fetchOperands s (widthOf ir) >>= fun ops => .ok { ir := ir, ops := ops } := by
  rw [fetch, memRead_of_some s.pc.isLt hop]
  rfl

theorem fetch_of_opcode_none {s : State} (hop : cellAt s s.pc.toNat = none) :
    fetch s = .error .uninitializedRead := by
  rw [fetch, memRead_of_none s.pc.isLt hop, error_bind]

theorem fetch_of_operands_error {s : State} {ir : Byte} {code : FaultCause} (hop : cellAt s s.pc.toNat = some ir)
    (hops : fetchOperands s (widthOf ir) = .error code) : fetch s = .error code := by
  rw [fetch_of_opcode hop, hops, error_bind]

/-- Operand A is read first, where the width asks for an operand (R45). -/
theorem fetchOperands_of_readA_error {s : State} {w : Width} {code : FaultCause} (hw : w ≠ .one)
    (ha : memRead s (s.pc.toNat + 1) = .error code) : fetchOperands s w = .error code := by
  cases w with
  | one => exact absurd rfl hw
  | two | three => rw [fetchOperands, ha, error_bind]

/-- Operand B is read once operand A is (R45). -/
theorem fetchOperands_of_readB_error {s : State} {a : Byte} {code : FaultCause}
    (ha : memRead s (s.pc.toNat + 1) = .ok a) (hb : memRead s (s.pc.toNat + 2) = .error code) :
    fetchOperands s .three = .error code := by
  rw [fetchOperands, ha, ok_bind, hb, error_bind]

theorem step_of_readA_error {s : State} {ir : Byte} {code : FaultCause} (hr : s.run = .running)
    (hop : cellAt s s.pc.toNat = some ir) (hw : widthOf ir ≠ .one) (ha : memRead s (s.pc.toNat + 1) = .error code) :
    step s = .next (enterFault code s) :=
  step_of_fetch_error hr (fetch_of_operands_error hop (fetchOperands_of_readA_error hw ha))

theorem step_of_readB_error {s : State} {ir a : Byte} {code : FaultCause} (hr : s.run = .running)
    (hop : cellAt s s.pc.toNat = some ir) (hw : widthOf ir = .three) (ha : memRead s (s.pc.toNat + 1) = .ok a)
    (hb : memRead s (s.pc.toNat + 2) = .error code) : step s = .next (enterFault code s) := by
  have hops : fetchOperands s (widthOf ir) = .error code := by rw [hw, fetchOperands_of_readB_error ha hb]
  exact step_of_fetch_error hr (fetch_of_operands_error hop hops)

/-- Settles O16: each check is the one read that fails, after the reads before it passed. -/
theorem fetchAndOperandFaults : Obligations.FetchAndOperandFaults := by
  intro s hr
  refine ⟨fun hop => step_of_fetch_error hr (fetch_of_opcode_none hop), fun ir hop => ⟨?_, ?_, ?_, ?_⟩⟩
  · intro hw htop
    exact step_of_readA_error hr hop hw (memRead_of_ge htop)
  · intro hw hin hnone
    exact step_of_readA_error hr hop hw (memRead_of_none hin hnone)
  · intro a hw hin ha htop
    exact step_of_readB_error hr hop hw (memRead_of_some hin ha) (memRead_of_ge htop)
  · intro a hw ha hin hnone
    exact step_of_readB_error hr hop hw (memRead_of_some (Nat.lt_of_succ_lt hin) ha) (memRead_of_none hin hnone)

/-! ## A fetch that passes, and the decoded instruction (R43, R47) -/

theorem fetchOperands_of_holdsBytes {s : State} {ops : Operands} (h : holdsBytes s (s.pc.toNat + 1) ops.toList) :
    fetchOperands s ops.width = .ok ops := by
  cases ops with
  | none => rfl
  | one a =>
    obtain ⟨hin, ha, -⟩ := h
    rw [Operands.width, fetchOperands, memRead_of_some hin ha]
    rfl
  | two a b =>
    obtain ⟨hinA, ha, hinB, hb, -⟩ := h
    rw [Operands.width, fetchOperands, memRead_of_some hinA ha, ok_bind, memRead_of_some hinB hb]
    rfl

/-- The converse of `fetch_ok` and `fetch_ops_width`: bytes that stand at `pc` and fit the width are fetched. -/
theorem fetch_of_holdsBytes {s : State} {f : Fetched} (hw : f.ops.width = widthOf f.ir)
    (h : holdsBytes s s.pc.toNat (fetchedBytes f)) : fetch s = .ok f := by
  obtain ⟨-, hop, hops⟩ := h
  rw [fetch_of_opcode hop, ← hw, fetchOperands_of_holdsBytes hops, ok_bind]

theorem operands_toList_injective : Function.Injective Operands.toList := by
  intro x y h
  cases x <;> cases y <;> cases h <;> rfl

/-- Fetched bytes that decode with nothing left fit their width, and decode to what they assemble to. -/
theorem decode_fetchedBytes {f : Fetched} {i : Instr} (h : decode (fetchedBytes f) = .ok (i, [])) :
    f.ops.width = widthOf f.ir ∧ i = assemble f.ir f.ops := by
  obtain ⟨ir, ops, hw, hbytes, hi⟩ := decode_eq_ok_iff.mp h
  rw [List.append_nil] at hbytes
  obtain ⟨hir, hlist⟩ := List.cons.inj hbytes
  rw [hir, operands_toList_injective hlist]
  exact ⟨hw, hi⟩

/-- Settles O15. -/
theorem stepRunsDecodedInstruction : Obligations.StepRunsDecodedInstruction := by
  intro s f i hr hdec hbytes
  obtain ⟨hw, rfl⟩ := decode_fetchedBytes hdec
  have hstep : step s = latchOutcome f (exec (assemble f.ir f.ops) s) :=
    step_of_fetch_ok hr (fetch_of_holdsBytes hw hbytes)
  refine ⟨hstep, fun t ht hrun => ?_, fun t ht hrun => ?_⟩
  · rw [hstep, ht, latchOutcome_completed f hrun]
  · rw [hstep, ht, latchOutcome_faulted f hrun]

/-! ## How a step from RUNNING ends -/

/-- A meaning that completes from RUNNING does not end in FAULTED. -/
theorem Completes.not_faulted {i : Instr} {s t : State} (hc : Completes s i t) (hr : s.run = .running) :
    t.run ≠ .faulted := by
  obtain ⟨e | ⟨-, e⟩, -⟩ := hc.run_and_record
  · simp [e, hr]
  · simp [e]

/-- From RUNNING a step takes one fault entry and changes nothing else, the latches included, or it completes the fetched
instruction and writes the latches (R43, R49, R74, log entry 6). -/
theorem step_faults_or_completes {s u : State} (hr : s.run = .running) (h : step s = .next u) :
    (∃ code, u = enterFault code s) ∨
      ∃ f t, fetch s = .ok f ∧ Completes s (assemble f.ir f.ops) t ∧
        u = { t with latches := latchFetched f t.latches } := by
  cases hf : fetch s with
  | error code =>
    rw [step_of_fetch_error hr hf] at h
    cases h
    exact .inl ⟨code, rfl⟩
  | ok f =>
    obtain ⟨t, ht⟩ := exec_next (assemble f.ir f.ops) s
    rw [step_of_fetch_ok hr hf, ht] at h
    obtain hc | ⟨code, rfl⟩ := exec_completes_or_faults ht
    · rw [latchOutcome_completed f (hc.not_faulted hr)] at h
      cases h
      exact .inr ⟨f, t, rfl, hc, rfl⟩
    · rw [latchOutcome_faulted f rfl] at h
      cases h
      exact .inl ⟨code, rfl⟩

/-- Settles O18: a step that completes does not end in FAULTED, so the step took a fault entry. -/
theorem faultingStepIsAtomic : Obligations.FaultingStepIsAtomic := by
  intro s u hr h hfaulted
  obtain hfault | ⟨f, t, -, hc, rfl⟩ := step_faults_or_completes hr h
  · exact hfault
  · exact absurd hfaulted (hc.not_faulted hr)

/-- Settles O19. -/
theorem stepAlwaysAnswersNext : Obligations.StepAlwaysAnswersNext :=
  step_next

/-- An advance that fits moves `pc` by the width without wrapping (R48, D3). -/
theorem advanceTarget_toNat {ir : Byte} {s : State} (hn : nextAddress ir s < 256) :
    (advanceTarget ir s).toNat = s.pc.toNat + (widthOf ir).bytes := by
  rw [advanceTarget, BitVec.toNat_ofNat, Nat.mod_eq_of_lt hn, nextAddress]

/-- A completed instruction other than CALL and RET has advanced by its width (R48). -/
theorem Completes.pc_toNat {i : Instr} {s t : State} (hc : Completes s i t) (hcall : i.opcode ≠ opcodeOf .call)
    (hret : i.opcode ≠ opcodeOf .ret) : t.pc.toNat = s.pc.toNat + (widthOf i.opcode).bytes := by
  cases hc with
  | call => exact absurd rfl hcall
  | ret => exact absurd rfl hret
  | ldi _ hn | add _ _ hn | mul _ _ hn | cmp _ _ hn | prn _ hn | push _ hn | pop _ _ hn | hlt hn
  | unrecognized hn => exact advanceTarget_toNat hn

/-- Settles O21: the step that does not fault completes the instruction whose opcode byte is at `pc`. -/
theorem sequentialStepAdvancesByWidth : Obligations.SequentialStepAdvancesByWidth := by
  intro s u ir hr hop hcall hret h hrun
  obtain ⟨code, rfl⟩ | ⟨f, t, hf, hc, rfl⟩ := step_faults_or_completes hr h
  · exact absurd rfl hrun
  · have hir : (assemble f.ir f.ops).opcode = ir := by
      rw [assemble_opcode (fetch_ops_width hf)]
      exact Option.some.inj ((fetch_ok hf).1.symm.trans hop)
    rw [← hir] at hcall hret ⊢
    exact hc.pc_toNat hcall hret

/-! ## A register check that fails (R46): it comes before everything else in a meaning -/

theorem commit_regIndex_of_ge {a : Byte} (ha : 8 ≤ a.toNat) (f : Fin 8 → Except FaultCause State) (s : State) :
    commit s (regIndex a >>= f) = .next (enterFault .invalidRegister s) := by
  rw [regIndex_of_ge ha, error_bind, commit_error]

theorem commit_aluInstruction_of_register_ge {a b : Byte} (h : 8 ≤ a.toNat ∨ 8 ≤ b.toNat) (op : Op) (sel : BitVec 2)
    (s : State) : commit s (aluInstruction op sel a b s) = .next (enterFault .invalidRegister s) := by
  rw [aluInstruction, regIndexPair_of_ge h, error_bind, commit_error]

/-- Settles O44. -/
theorem outOfRangeRegisterTraps : Obligations.OutOfRangeRegisterTraps := by
  intro s a b
  refine ⟨fun ha => ?_, fun h => ?_⟩
  · have hfault := commit_regIndex_of_ge ha (s := s)
    exact ⟨hfault _, hfault _, hfault _, hfault _, hfault _⟩
  · have hfault := commit_aluInstruction_of_register_ge h (s := s)
    exact ⟨hfault .add aluAdd, hfault .mul aluMul, hfault .cmp aluCmp⟩

/-! ## An advance that fails (R48): nothing of the instruction takes effect -/

theorem commit_advance_of_ge {next : Nat} (hn : 256 ≤ next) (s t : State) :
    commit s (advance next t) = .next (enterFault .invalidAddress s) := by
  rw [advance_of_ge t hn, commit_error]

theorem commit_regIndex_advance_of_ge {a : Byte} {next : Nat} (ha : a.toNat < 8) (hn : 256 ≤ next)
    (f : Fin 8 → State) (s : State) :
    commit s (regIndex a >>= fun ra => advance next (f ra)) = .next (enterFault .invalidAddress s) := by
  rw [regIndex_of_lt ⟨_, ha⟩ rfl, ok_bind, commit_advance_of_ge hn]

theorem commit_aluInstruction_of_next_ge {op : Op} {a b : Byte} {s : State} (ha : a.toNat < 8) (hb : b.toNat < 8)
    (hn : 256 ≤ nextAddress (opcodeOf op) s) (sel : BitVec 2) :
    commit s (aluInstruction op sel a b s) = .next (enterFault .invalidAddress s) := by
  rw [aluInstruction, regIndexPair_of_lt ⟨_, ha⟩ ⟨_, hb⟩ rfl rfl, ok_bind, commit_advance_of_ge hn]

/-- POP's stack read comes before its advance (R66, R75). -/
theorem exec_pop_of_next_ge {s : State} {a : Byte} (ha : a.toNat < 8) (hcell : cellAt s (sp s).toNat ≠ none)
    (hn : 256 ≤ nextAddress (opcodeOf .pop) s) : exec (.pop a) s = .next (enterFault .invalidAddress s) := by
  obtain ⟨v, hv⟩ := Option.ne_none_iff_exists'.mp hcell
  calc exec (.pop a) s
    _ = commit s (regIndex a >>= fun ra => memRead s (sp s).toNat >>= fun v =>
          advance (nextAddress (opcodeOf .pop) s) (incSp (setReg s ra v))) := rfl
    _ = _ := by
      rw [regIndex_of_lt ⟨_, ha⟩ rfl, ok_bind, memRead_of_some (sp s).isLt hv, ok_bind, commit_advance_of_ge hn]

/-- Settles O45, by the widths of the assigned opcodes. -/
theorem advancePastTheTopTraps : Obligations.AdvancePastTheTopTraps := by
  intro s a b imm ha hb
  refine ⟨fun hn => ⟨?_, ?_, ?_, ?_⟩, fun hn => ⟨?_, ?_, fun hcell => ?_⟩, fun hn => ?_, fun ir ops hn => ?_⟩
  · exact commit_regIndex_advance_of_ge ha hn _ s
  · exact commit_aluInstruction_of_next_ge (op := .add) ha hb hn aluAdd
  · exact commit_aluInstruction_of_next_ge (op := .mul) ha hb hn aluMul
  · exact commit_aluInstruction_of_next_ge (op := .cmp) ha hb hn aluCmp
  · exact commit_regIndex_advance_of_ge ha hn _ s
  · exact commit_regIndex_advance_of_ge ha hn _ s
  · exact exec_pop_of_next_ge ha hcell hn
  · exact commit_advance_of_ge hn s (halt s)
  · exact commit_advance_of_ge hn s s

/-! ## The observation outputs and the decoder's outputs (R51, R53) -/

theorem faultCodeBits_injective : Function.Injective faultCodeBits := by
  rintro (_ | _ | _ | _) (_ | _ | _ | _) h <;> cases h <;> rfl

/-- Settles O6: the four codes are distinct. -/
theorem portsShowRunFaultAndFlags : Obligations.PortsShowRunFaultAndFlags := by
  intro s
  have hcode (c : Option FaultCause) : faultCodeBits s.faultCode = faultCodeBits c ↔ s.faultCode = c :=
    faultCodeBits_injective.eq_iff
  exact ⟨beq_iff_eq, beq_iff_eq, hcode none, hcode (some .invalidAddress), hcode (some .invalidRegister),
    hcode (some .uninitializedRead), rfl, rfl, rfl⟩

theorem classOf_eq_controlTransfer_iff (ir : Byte) :
    classOf ir = .controlTransfer ↔ opOf ir = some .call ∨ opOf ir = some .ret := by
  unfold classOf
  split <;> simp_all

/-- The ALU is selected by its three opcode bytes alone (R51, R55). -/
theorem aluSelectorOf_eq (ir : Byte) :
    aluSelectorOf ir =
      if ir = opcodeOf .add then some aluAdd else if ir = opcodeOf .mul then some aluMul
      else if ir = opcodeOf .cmp then some aluCmp else none := by
  simp only [← opOf_eq_some_iff, aluSelectorOf]
  split <;> simp_all

/-- Settles O10. -/
theorem decoderClassAndSelector : Obligations.DecoderClassAndSelector := by
  intro ir
  refine ⟨?_, aluSelectorOf_eq ir⟩
  rw [classOf_eq_controlTransfer_iff, opOf_eq_some_iff, opOf_eq_some_iff]
  rfl

end Sys2Proof.Machine

/-! # The ALU and its three instructions (family 41_alu_ops)

What the ALU's outputs do to the state and which outputs a selector has; ADD, MUL and CMP where their checks pass; and the
flags as the record of every executed compare (R60): one step first, then any number of steps. -/

namespace Sys2Proof.Machine

/-! ## The ALU's outputs (R54, R55, R56) -/

/-- The write enable alone writes the result, and to the destination alone (R54). -/
theorem getReg_applyAlu (dest : Fin 8) (y : AluOut) (s : State) (r : Fin 8) :
    getReg (applyAlu dest y s) r = if y.we = true ∧ r = dest then y.y else getReg s r := by
  by_cases hwe : y.we = true
  · have hregs : (applyAlu dest y s).regs = (setReg s dest y.y).regs := by simp [hwe]
    rw [getReg_congr hregs, getReg_setReg]
    simp [hwe]
  · rw [getReg_congr (s := s) (by simp [hwe]), if_neg fun h => hwe h.1]

/-- CMP's strobes are the three unsigned relations (R54, R59, D8). -/
theorem alu_cmp (a b : Byte) :
    alu aluCmp a b =
      { y := 0, we := false, setE := decide (a.toNat = b.toNat), setL := decide (a.toNat < b.toNat),
        setG := decide (a.toNat > b.toNat), err := false } := by
  have heq : (a == b) = decide (a.toNat = b.toNat) :=
    Bool.eq_iff_iff.mpr (by simp [BitVec.toNat_inj])
  simp [alu, aluCmp, aluAdd, aluMul, heq]

/-- Settles O22. -/
theorem aluOutputs : Obligations.AluOutputs := by
  refine ⟨fun dest y s => ⟨getReg_applyAlu dest y s, ?_, ?_, ?_⟩, fun op a b => ?_⟩
  · simp [strobeFlags]
  · simp [strobeFlags]
  · simp [strobeFlags]
  · by_cases hcmp : op = aluCmp
    · rw [hcmp]
      exact alu_cmp a b
    · have hcmp' : op ≠ 0b10 := hcmp
      rw [alu, if_neg hcmp, if_neg hcmp']
      rfl

/-- Outputs without the write enable and without a strobe have no effect (R54). -/
theorem applyAlu_of_no_output {y : AluOut} (hwe : y.we = false) (he : y.setE = false) (hl : y.setL = false)
    (hg : y.setG = false) (dest : Fin 8) (s : State) : applyAlu dest y s = s := by
  simp [applyAlu, hwe, strobeFlags_none he hl hg]

/-- Settles O23: the unsupported selector has the error strobe alone. -/
theorem unsupportedSelectorChangesNothing : Obligations.UnsupportedSelectorChangesNothing :=
  fun dest _ _ s => applyAlu_of_no_output rfl rfl rfl rfl dest s

/-- The ALU's product is that of the bytes, so no reading of their sign shows in it (R56). -/
theorem alu_mul_y (a b : Byte) : (alu aluMul a b).y = a * b := by
  apply BitVec.eq_of_toNat_eq
  simp [alu, aluMul, aluAdd]

/-- Settles O24. -/
theorem aluWrapsForEitherSign : Obligations.AluWrapsForEitherSign := by
  intro a b
  refine ⟨?_, ?_, ?_⟩
  · simp [alu]
  · rw [alu_mul_y, BitVec.toNat_mul]
  · rw [alu_mul_y, BitVec.ofInt_mul, BitVec.ofInt_toInt, BitVec.ofInt_toInt]

/-! ## ADD, MUL and CMP where their checks pass (R57, R58, R59) -/

theorem commit_advance_of_lt {next : Nat} (hn : next < 256) (s t : State) :
    commit s (advance next t) = .next (setPc t (BitVec.ofNat 8 next)) := by
  rw [advance_of_lt t hn, commit_ok]

/-- The shape that the three share, for an opcode of width three. -/
theorem commit_aluInstruction_of_lt {op : Op} {a b : Byte} {ra rb : Fin 8} {s : State} (ha : a.toNat = ra.val)
    (hb : b.toNat = rb.val) (hw : widthOf (opcodeOf op) = .three) (hpc : s.pc.toNat + 3 < 256) (sel : BitVec 2) :
    commit s (aluInstruction op sel a b s) =
      .next (setPc (applyAlu ra (alu sel (getReg s ra) (getReg s rb)) s) (s.pc + 3)) := by
  have hnext : nextAddress (opcodeOf op) s = s.pc.toNat + 3 := by rw [nextAddress, hw]; rfl
  rw [aluInstruction, regIndexPair_of_lt ra rb ha hb, ok_bind, hnext, commit_advance_of_lt hpc,
    ofNat_toNat_add]
  rfl

/-- Settles O25. -/
theorem addResult : Obligations.AddResult := by
  intro s a b ra rb ha hb hpc
  calc exec (.add a b) s
    _ = _ := commit_aluInstruction_of_lt ha hb widthOf_add hpc aluAdd
    _ = _ := by rw [applyAlu_add]; rfl

/-- Settles O26. -/
theorem mulResult : Obligations.MulResult := by
  intro s a b ra rb ha hb hpc
  calc exec (.mul a b) s
    _ = _ := commit_aluInstruction_of_lt ha hb widthOf_mul hpc aluMul
    _ = _ := by rw [applyAlu_mul]; rfl

/-- CMP where its checks pass, with the flags as the ALU strobes them. -/
theorem exec_cmp_of_lt {s : State} {a b : Byte} {ra rb : Fin 8} (ha : a.toNat = ra.val) (hb : b.toNat = rb.val)
    (hpc : s.pc.toNat + 3 < 256) :
    exec (.cmp a b) s =
      .next { s with pc := s.pc + 3, flags := strobeFlags (alu aluCmp (getReg s ra) (getReg s rb)) s.flags } := by
  calc exec (.cmp a b) s
    _ = _ := commit_aluInstruction_of_lt ha hb widthOf_cmp hpc aluCmp
    _ = _ := by rw [applyAlu_cmp]; rfl

/-- Of the three relations exactly one holds, so CMP sets one flag and leaves the others (R59). -/
theorem strobeFlags_cmp (x y : Byte) (f : Flags) :
    strobeFlags (alu aluCmp x y) f =
      if x.toNat = y.toNat then { f with e := true }
      else if x.toNat < y.toNat then { f with l := true }
      else { f with g := true } := by
  rw [alu_cmp]
  rcases Nat.lt_trichotomy x.toNat y.toNat with h | h | h
  · simp [strobeFlags, h, Nat.ne_of_lt h, Nat.not_lt_of_gt h]
  · simp [strobeFlags, h]
  · simp [strobeFlags, h, Nat.ne_of_gt h, Nat.not_lt_of_gt h]

/-- Settles O27. -/
theorem cmpResult : Obligations.CmpResult := by
  intro s a b ra rb ha hb hpc
  rw [exec_cmp_of_lt ha hb hpc, strobeFlags_cmp]

/-! ## The compare that a step executes (R60) -/

theorem fetch_cmp_iff {s : State} {a b : Byte} :
    fetch s = .ok { ir := opcodeOf .cmp, ops := .two a b } ↔
      cellAt s s.pc.toNat = some (opcodeOf .cmp) ∧ s.pc.toNat + 2 < 256 ∧
        cellAt s (s.pc.toNat + 1) = some a ∧ cellAt s (s.pc.toNat + 2) = some b := by
  constructor
  · intro hf
    obtain ⟨hop, ⟨-, hops⟩ | ⟨_, -, hops, -⟩ | ⟨_, _, -, hops, hbytes⟩⟩ := fetch_ok hf
    · cases hops
    · cases hops
    · cases hops
      exact ⟨hop, hbytes⟩
  · rintro ⟨hop, hlt, ha, hb⟩
    exact fetch_of_holdsBytes widthOf_cmp.symm
      ⟨s.pc.isLt, hop, Nat.lt_of_succ_lt hlt, ha, hlt, hb, trivial⟩

/-- A step executes a CMP to its end exactly when it fetches one whose register checks and advance pass. -/
theorem executedCmp_eq_some_iff {s : State} {x y : Byte} :
    executedCmp s = some (x, y) ↔
      s.run = .running ∧ s.pc.toNat + 3 < 256 ∧ ∃ (a b : Byte) (ra rb : Fin 8),
        fetch s = .ok { ir := opcodeOf .cmp, ops := .two a b } ∧
          a.toNat = ra.val ∧ b.toNat = rb.val ∧ x = getReg s ra ∧ y = getReg s rb := by
  constructor
  · intro h
    unfold executedCmp at h
    split at h
    · rename_i hchecks
      obtain ⟨hr, hop, hpc⟩ := hchecks
      split at h
      · rename_i a b ha hb
        split at h
        · rename_i hregs
          cases h
          exact ⟨hr, hpc, a, b, ⟨_, hregs.1⟩, ⟨_, hregs.2⟩,
            fetch_cmp_iff.mpr ⟨hop, Nat.lt_of_succ_lt hpc, ha, hb⟩, rfl, rfl, rfl, rfl⟩
        · cases h
      · cases h
    · cases h
  · rintro ⟨hr, hpc, a, b, ra, rb, hf, ha, hb, rfl, rfl⟩
    obtain ⟨hop, -, hcellA, hcellB⟩ := fetch_cmp_iff.mp hf
    simp [executedCmp, hr, hop, hpc, hcellA, hcellB, ha, hb]

/-! ## The flags after one step -/

/-- A step that executes a CMP strobes its relations. -/
theorem step_flags_of_executedCmp {s u : State} {x y : Byte} (h : step s = .next u)
    (hc : executedCmp s = some (x, y)) : u.flags = strobeFlags (alu aluCmp x y) s.flags := by
  obtain ⟨hr, hpc, a, b, ra, rb, hf, ha, hb, rfl, rfl⟩ := executedCmp_eq_some_iff.mp hc
  obtain ⟨t, ht, e⟩ : ∃ t, exec (.cmp a b) s = .next t ∧ u = { t with latches := u.latches } :=
    latchOutcome_cases ((step_of_fetch_ok hr hf).symm.trans h)
  rw [exec_cmp_of_lt ha hb hpc] at ht
  cases ht
  rw [e]

/-- The converse: a CMP that completes in a step is the executed one. -/
theorem executedCmp_of_completes {s t : State} {f : Fetched} {a b : Byte} (hr : s.run = .running)
    (hf : fetch s = .ok f) (hi : assemble f.ir f.ops = .cmp a b) (hc : Completes s (.cmp a b) t) :
    executedCmp s ≠ none := by
  have hw : f.ops.width = widthOf f.ir := fetch_ops_width hf
  have hir : opcodeOf .cmp = f.ir := by rw [← assemble_opcode hw, hi]; rfl
  have hops : .two a b = f.ops := by rw [← assemble_operands hw, hi]; rfl
  have hfetch : fetch s = .ok { ir := opcodeOf .cmp, ops := .two a b } := by rw [hf, hir, hops]
  cases hc with
  | cmp ha hb hn =>
    exact Option.ne_none_iff_exists'.mpr
      ⟨_, executedCmp_eq_some_iff.mpr ⟨hr, hn, a, b, _, _, hfetch, ha, hb, rfl, rfl⟩⟩

/-- A step that executes no CMP to its end leaves the flags. -/
theorem step_flags_of_no_executedCmp {s u : State} (h : step s = .next u) (hc : executedCmp s = none) :
    u.flags = s.flags := by
  by_cases hr : s.run = .running
  · obtain ⟨code, rfl⟩ | ⟨f, t, hf, hdone, rfl⟩ := step_faults_or_completes hr h
    · rfl
    · cases hi : assemble f.ir f.ops with
      | cmp a b => exact absurd hc (executedCmp_of_completes hr hf hi (hi ▸ hdone))
      | _ => rw [hi] at hdone; cases hdone; rfl
  · rw [step_of_not_running hr] at h
    cases h
    rfl

/-! ## The flags after any number of steps -/

theorem step_stateAfter (n : Nat) (s : State) : step (stateAfter n s) = .next (stateAfter (n + 1) s) := by
  obtain ⟨t, ht⟩ := step_next (stateAfter n s)
  rw [stateAfter, ht]

section
variable {flag : Flags → Bool} {rel : Byte → Byte → Prop}
  (hflag : ∀ x y f, flag (strobeFlags (alu aluCmp x y) f) = true ↔ flag f = true ∨ rel x y)
include hflag

/-- One step of the flag law, for the flag that records the relation `rel`. -/
theorem step_flag_iff {s u : State} (h : step s = .next u) :
    flag u.flags = true ↔ flag s.flags = true ∨ ∃ x y, executedCmp s = some (x, y) ∧ rel x y := by
  cases hc : executedCmp s with
  | none => simp [step_flags_of_no_executedCmp h hc]
  | some compared =>
    obtain ⟨x, y⟩ := compared
    rw [step_flags_of_executedCmp h hc, hflag]
    simp [and_assoc]

/-- The flag law of R60 over every run, for the flag that records the relation `rel`. -/
theorem stateAfter_flag_iff (n : Nat) (s : State) :
    flag (stateAfter n s).flags = true ↔
      flag s.flags = true ∨ ∃ k x y, k < n ∧ executedCmp (stateAfter k s) = some (x, y) ∧ rel x y := by
  induction n with
  | zero => simp [stateAfter]
  | succ n ih =>
    rw [step_flag_iff hflag (step_stateAfter n s), ih]
    constructor
    · rintro ((h | ⟨k, x, y, hk, h⟩) | ⟨x, y, h⟩)
      · exact .inl h
      · exact .inr ⟨k, x, y, Nat.lt_succ_of_lt hk, h⟩
      · exact .inr ⟨n, x, y, Nat.lt_succ_self n, h⟩
    · rintro (h | ⟨k, x, y, hk, h⟩)
      · exact .inl (.inl h)
      · obtain hlt | rfl := Nat.lt_succ_iff_lt_or_eq.mp hk
        · exact .inl (.inr ⟨k, x, y, hlt, h⟩)
        · exact .inr ⟨x, y, h⟩

end

/-- Settles O28: each flag records the relation of its strobe. -/
theorem flagsRecordEveryCompare : Obligations.FlagsRecordEveryCompare := by
  refine ⟨fun _ => rfl, fun n s => ⟨?_, ?_, ?_⟩⟩
  · exact stateAfter_flag_iff (flag := Flags.e) (fun x y f => by simp [strobeFlags, alu_cmp]) n s
  · exact stateAfter_flag_iff (flag := Flags.l) (fun x y f => by simp [strobeFlags, alu_cmp]) n s
  · exact stateAfter_flag_iff (flag := Flags.g) (fun x y f => by simp [strobeFlags, alu_cmp]) n s

end Sys2Proof.Machine

/-! # LDI and PRN (family 42_load_and_output)

Both check one register operand and then advance by their width; what the instruction does to the state in between is all
that tells them apart. -/

namespace Sys2Proof.Machine

/-- One register operand and an advance, where both checks pass (R46, R48); `w` is the instruction's width in bytes. -/
theorem commit_regIndex_advance_of_lt {a : Byte} {ra : Fin 8} {next w : Nat} {s : State} (ha : a.toNat = ra.val)
    (hnext : next = s.pc.toNat + w) (hpc : s.pc.toNat + w < 256) (f : Fin 8 → State) :
    commit s (regIndex a >>= fun r => advance next (f r)) = .next (setPc (f ra) (s.pc + BitVec.ofNat 8 w)) := by
  rw [regIndex_of_lt ra ha, ok_bind, hnext, commit_advance_of_lt hpc, ofNat_toNat_add]

theorem nextAddress_ldi (s : State) : nextAddress (opcodeOf .ldi) s = s.pc.toNat + 3 := by
  rw [nextAddress, widthOf_ldi]
  rfl

theorem nextAddress_prn (s : State) : nextAddress (opcodeOf .prn) s = s.pc.toNat + 2 := by
  rw [nextAddress, widthOf_prn]
  rfl

/-- Settles O29: the immediate is written as it stands (R36). -/
theorem ldiResult : Obligations.LdiResult := by
  intro s a imm ra ha hpc
  calc exec (.ldi a imm) s
    _ = .next (setPc (setReg s ra (immediate imm)) (s.pc + 3)) :=
        commit_regIndex_advance_of_lt ha (nextAddress_ldi s) hpc fun r => setReg s r (immediate imm)
    _ = .next { setReg s ra imm with pc := s.pc + 3 } := rfl

/-- Settles O30: the byte is read from the state before the step (R62). -/
theorem prnResult : Obligations.PrnResult := by
  intro s a ra ha hpc
  calc exec (.prn a) s
    _ = .next (setPc (emit s (getReg s ra)) (s.pc + 2)) :=
        commit_regIndex_advance_of_lt ha (nextAddress_prn s) hpc fun r => emit s (getReg s r)
    _ = .next { s with pc := s.pc + 2, out := s.out ++ [getReg s ra] } := rfl

end Sys2Proof.Machine

/-! # The stack: PUSH and POP (family 43_stack_ops)

PUSH and POP where their checks pass, as one state function each; what the two do in a row; and the checks that CALL, POP
and RET make of their own. -/

namespace Sys2Proof.Machine

/-! ## The stack pointer (R64) -/

theorem sameRegsBut_setReg (s : State) (r : Fin 8) (v : Byte) : sameRegsBut [r.val] s (setReg s r v) :=
  sameRegsBut_of_regs_set rfl List.mem_cons_self

/-- Settles O34. -/
theorem stackPointerWraps : Obligations.StackPointerWraps := by
  intro s
  have hdec : getReg (decSp s) 7 = getReg s 7 - 1 := getReg_setReg_same s 7 _
  have hinc : getReg (incSp s) 7 = getReg s 7 + 1 := getReg_setReg_same s 7 _
  refine ⟨?_, ?_, sameRegsBut_setReg s 7 _, sameRegsBut_setReg s 7 _⟩
  · rw [hdec]
    bv_omega
  · rw [hinc]
    bv_omega

theorem setReg_setReg_same (s : State) (r : Fin 8) (v w : Byte) : setReg (setReg s r v) r w = setReg s r w := by
  simp [setReg]

theorem setReg_getReg_self (s : State) (r : Fin 8) : setReg s r (getReg s r) = s := by
  simp [setReg, getReg_def]

theorem setReg_comm (s : State) {r q : Fin 8} (v w : Byte) (h : r ≠ q) :
    setReg (setReg s r v) q w = setReg (setReg s q w) r v := by
  have hval : r.val ≠ q.val := fun e => h (Fin.ext e)
  simp [setReg, Vector.set_comm _ _ hval]

theorem incSp_decSp (s : State) : incSp (decSp s) = s := by
  have hsp : getReg (decSp s) 7 + 1 = getReg s 7 := by rw [getReg_decSp, if_pos rfl, BitVec.sub_add_cancel]
  rw [incSp_def, hsp, decSp_def, setReg_setReg_same, setReg_getReg_self]

/-- A write to another register than R7 does not see the stack pointer move. -/
theorem incSp_setReg (s : State) {r : Fin 8} (v : Byte) (h : r ≠ 7) :
    incSp (setReg s r v) = setReg (incSp s) r v := by
  rw [incSp_def, getReg_setReg_other s v h.symm, setReg_comm s v _ h, incSp_def]

/-! ## PUSH and POP where their checks pass (R65, R66) -/

/-- The state in which PUSH of register `r` completes. -/
def afterPush (r : Fin 8) (s : State) : State :=
  setPc (pushByte (fun t => getReg t r) s) (s.pc + 2)

/-- The state in which POP into register `r` completes, where the stack cell holds `v`. -/
def afterPop (r : Fin 8) (v : Byte) (s : State) : State :=
  setPc (incSp (setReg s r v)) (s.pc + 2)

theorem exec_push_eq_afterPush {s : State} {a : Byte} {ra : Fin 8} (ha : a.toNat = ra.val)
    (hpc : s.pc.toNat + 2 < 256) : exec (.push a) s = .next (afterPush ra s) := by
  rw [exec_push_of_lt ha hpc, advanceTarget_push, afterPush]

theorem exec_pop (a : Byte) (s : State) :
    exec (.pop a) s =
      commit s (regIndex a >>= fun ra => memRead s (sp s).toNat >>= fun v =>
        advance (s.pc.toNat + 2) (incSp (setReg s ra v))) := rfl

theorem exec_pop_eq_afterPop {s : State} {a v : Byte} {ra : Fin 8} (ha : a.toNat = ra.val)
    (hv : cellAt s (sp s).toNat = some v) (hpc : s.pc.toNat + 2 < 256) :
    exec (.pop a) s = .next (afterPop ra v s) := by
  rw [exec_pop, regIndex_of_lt ra ha, ok_bind, memRead_of_some (sp s).isLt hv, ok_bind, commit_advance_of_lt hpc,
    ofNat_toNat_add]
  rfl

/-- Settles O32: the byte is read after the decrement, which shows for R7 alone (D19). -/
theorem pushResult : Obligations.PushResult := by
  intro s a ra ha hpc
  calc exec (.push a) s
    _ = .next (setPc (memWrite (decSp s) (sp (decSp s)) (getReg (decSp s) ra)) (s.pc + 2)) :=
        exec_push_eq_afterPush ha hpc
    _ = _ := by rw [sp_decSp, getReg_decSp, decSp_def]; rfl

/-- Settles O33: the increment is of R7 as the load left it, which is the popped byte for R7 itself (D19). -/
theorem popResult : Obligations.PopResult := by
  intro s a v ra ha hv hpc
  have hsp : getReg (setReg s ra v) 7 + 1 = if ra = 7 then v + 1 else getReg s 7 + 1 := by
    by_cases h7 : ra = 7
    · rw [if_pos h7, h7, getReg_setReg_same]
    · rw [if_neg h7, getReg_setReg_other s v (Ne.symm h7)]
  calc exec (.pop a) s
    _ = .next (setPc (incSp (setReg s ra v)) (s.pc + 2)) := exec_pop_eq_afterPop ha hv hpc
    _ = _ := by rw [incSp_def, hsp]; rfl

/-! ## PUSH, then POP (R67) -/

theorem afterPush_pc_toNat {s : State} (hpc : s.pc.toNat + 4 < 256) (r : Fin 8) :
    (afterPush r s).pc.toNat + 2 < 256 := by
  have hadd : (afterPush r s).pc = s.pc + 2 := rfl
  rw [hadd]
  bv_omega

/-- The cell that PUSH wrote holds the byte it read after the decrement. -/
theorem cellAt_afterPush (r : Fin 8) (s : State) :
    cellAt (afterPush r s) (sp (decSp s)).toNat = some (getReg (decSp s) r) :=
  cellAt_memWrite_same (decSp s) _ _

/-- POP after PUSH reads the pushed byte back. -/
theorem exec_pop_afterPush {s : State} {b : Byte} {rb : Fin 8} (hb : b.toNat = rb.val)
    (hpc : s.pc.toNat + 4 < 256) (ra : Fin 8) :
    exec (.pop b) (afterPush ra s) = .next (afterPop rb (getReg (decSp s) ra) (afterPush ra s)) :=
  exec_pop_eq_afterPop hb (cellAt_afterPush ra s) (afterPush_pc_toNat hpc ra)

/-- Of the pushed state, the register file sees the decrement alone. -/
theorem afterPop_afterPush_regs (ra rb : Fin 8) (v : Byte) (s : State) :
    (afterPop rb v (afterPush ra s)).regs = (incSp (setReg (decSp s) rb v)).regs := rfl

/-- Settles O35: what is pushed is the register's value after the decrement, so the load writes back what is there, R7
included, and the increment undoes the decrement. -/
theorem pushThenPopRestores : Obligations.PushThenPopRestores := by
  intro s a ha hpc
  obtain ⟨ra, hra⟩ : ∃ ra : Fin 8, a.toNat = ra.val := ⟨⟨a.toNat, ha⟩, rfl⟩
  refine ⟨_, _, exec_push_eq_afterPush hra (by omega), ?_, exec_pop_afterPush hra hpc ra, ?_, ?_⟩
  · exact getReg_pushByte (fun t => getReg t ra) s 7
  · rw [afterPop_afterPush_regs, setReg_getReg_self, incSp_decSp]
  · exact BitVec.add_assoc s.pc 2 2

/-- Settles O36: the load is of another register than R7, so the stack pointer is restored around it. -/
theorem pushThenPopCopies : Obligations.PushThenPopCopies := by
  intro s a b ra rb ha hb hra hrb hpc
  have hv : getReg (decSp s) ra = getReg s ra := by rw [getReg_decSp, if_neg hra]
  have hregs : (afterPop rb (getReg (decSp s) ra) (afterPush ra s)).regs = (setReg s rb (getReg s ra)).regs := by
    rw [afterPop_afterPush_regs, incSp_setReg _ _ hrb, incSp_decSp, hv]
  refine ⟨_, _, exec_push_eq_afterPush ha (by omega), exec_pop_afterPush hb hpc ra, ?_, ?_, ?_, ?_⟩
  · rw [getReg_congr hregs, getReg_setReg_same]
  · rw [getReg_congr hregs, getReg_setReg_other s _ hrb.symm]
  · exact sameRegsBut_of_regs_set hregs List.mem_cons_self
  · rw [← hv, ← sp_decSp]
    exact cellAt_afterPush ra s

/-! ## The checks that CALL, POP and RET make of their own (R66, R68, R69) -/

theorem exec_call_of_next_ge {s : State} {a : Byte} (ha : a.toNat < 8) (hn : 256 ≤ s.pc.toNat + 2) :
    exec (.call a) s = .next (enterFault .invalidAddress s) := by
  calc exec (.call a) s
    _ = commit s (regIndex a >>= fun ra => checkAddress (s.pc.toNat + 2) >>= fun p =>
          pure (setPc (pushByte (fun _ => p) s) (getReg (pushByte (fun _ => p) s) ra))) := rfl
    _ = _ := by rw [regIndex_of_lt ⟨_, ha⟩ rfl, ok_bind, checkAddress_of_ge hn, error_bind, commit_error]

/-- A stack read of a cell that holds no value, whatever was to follow it. -/
theorem commit_stackRead_of_none {s : State} (hcell : cellAt s (sp s).toNat = none)
    (f : Byte → Except FaultCause State) :
    commit s (memRead s (sp s).toNat >>= f) = .next (enterFault .uninitializedRead s) := by
  rw [memRead_of_none (sp s).isLt hcell, error_bind, commit_error]

/-- Settles O46. -/
theorem stackAndReturnAddressTraps : Obligations.StackAndReturnAddressTraps := by
  intro s a ha
  refine ⟨exec_call_of_next_ge ha, fun hcell => ⟨?_, ?_⟩⟩
  · rw [exec_pop, regIndex_of_lt ⟨_, ha⟩ rfl, ok_bind, commit_stackRead_of_none hcell]
  · exact commit_stackRead_of_none hcell _

end Sys2Proof.Machine

/-! # Control transfer, halt and unrecognized opcodes (family 44_control_and_halt)

CALL and RET take no advance: each is given once as the state it completes in, and a return after a call is the one
applied to the other. HLT and unrecognized opcodes are an advance and nothing else, or a halt before it. -/

namespace Sys2Proof.Machine

/-! ## CALL and RET where their checks pass (R68, R69) -/

/-- The state in which CALL through register `r` completes: the target is read after the push, and so sees the new SP
(D19). -/
def afterCall (r : Fin 8) (s : State) : State :=
  setPc (pushByte (fun _ => s.pc + 2) s) (getReg (pushByte (fun _ => s.pc + 2) s) r)

theorem exec_call_eq_afterCall {s : State} {a : Byte} {ra : Fin 8} (ha : a.toNat = ra.val)
    (hpc : s.pc.toNat + 2 < 256) : exec (.call a) s = .next (afterCall ra s) := by
  calc exec (.call a) s
    _ = commit s (regIndex a >>= fun r => checkAddress (s.pc.toNat + 2) >>= fun p =>
          pure (setPc (pushByte (fun _ => p) s) (getReg (pushByte (fun _ => p) s) r))) := rfl
    _ = _ := by rw [regIndex_of_lt ra ha, ok_bind, checkAddress_of_lt hpc, ok_bind, ofNat_toNat_add]; rfl

theorem exec_ret_of_some {s : State} {v : Byte} (hv : cellAt s (sp s).toNat = some v) :
    exec .ret s = .next (incSp (setPc s v)) := by
  calc exec .ret s
    _ = commit s (memRead s (sp s).toNat >>= fun w => pure (incSp (setPc s w))) := rfl
    _ = _ := by rw [memRead_of_some (sp s).isLt hv, ok_bind]; rfl

/-- Settles O38: the push of the return address moves R7 alone, so only CALL R7 jumps elsewhere than to the register's
value before the step. -/
theorem callResult : Obligations.CallResult := by
  intro s a ra ha hpc
  calc exec (.call a) s
    _ = .next (setPc (memWrite (decSp s) (sp (decSp s)) (s.pc + 2))
          (getReg (pushByte (fun _ => s.pc + 2) s) ra)) := exec_call_eq_afterCall ha hpc
    _ = _ := by rw [getReg_pushByte, sp_decSp, decSp_def]; rfl

/-- Settles O39. -/
theorem retResult : Obligations.RetResult :=
  fun _ _ hv => exec_ret_of_some hv

/-! ## CALL, then RET (R72) -/

/-- The stack pointer after CALL is at the cell that holds the return address. -/
theorem cellAt_sp_afterCall (r : Fin 8) (s : State) :
    cellAt (afterCall r s) (sp (afterCall r s)).toNat = some (s.pc + 2) :=
  cellAt_memWrite_same (decSp s) (sp (decSp s)) (s.pc + 2)

/-- Of CALL's state, the register file sees the decrement alone, which RET's increment undoes. -/
theorem incSp_setPc_afterCall_regs (r : Fin 8) (s : State) (v : Byte) :
    (incSp (setPc (afterCall r s) v)).regs = s.regs := by
  calc (incSp (setPc (afterCall r s) v)).regs
    _ = (incSp (decSp s)).regs := rfl
    _ = s.regs := by rw [incSp_decSp]

/-- Settles O42: RET reads back what CALL stored, from whatever address CALL jumped to. -/
theorem callThenRetReturns : Obligations.CallThenRetReturns := by
  intro s a ha hpc
  obtain ⟨ra, hra⟩ : ∃ ra : Fin 8, a.toNat = ra.val := ⟨⟨a.toNat, ha⟩, rfl⟩
  refine ⟨_, _, exec_call_eq_afterCall hra hpc, exec_ret_of_some (cellAt_sp_afterCall ra s), ?_,
    incSp_setPc_afterCall_regs ra s _⟩
  rw [incSp_pc, setPc_pc]
  bv_omega

/-! ## HLT and unrecognized opcodes where the advance fits (R70, R71) -/

theorem nextAddress_hlt (s : State) : nextAddress (opcodeOf .hlt) s = s.pc.toNat + 1 := by
  rw [nextAddress, widthOf_hlt]
  rfl

/-- Settles O40. -/
theorem hltResult : Obligations.HltResult := by
  intro s hpc
  calc exec .hlt s
    _ = commit s (advance (s.pc.toNat + 1) (halt s)) := by rw [← nextAddress_hlt]; rfl
    _ = .next (setPc (halt s) (s.pc + 1)) := by rw [commit_advance_of_lt hpc, ofNat_toNat_add]; rfl
    _ = .next { s with pc := s.pc + 1, run := .halted } := rfl

/-- Settles O41: the operand bytes do not occur in the meaning (D26). -/
theorem unrecognizedResult : Obligations.UnrecognizedResult := by
  intro s ir ops hpc
  calc exec (.unrecognized ir ops) s
    _ = commit s (advance (s.pc.toNat + (widthOf ir).bytes) s) := rfl
    _ = .next (setPc s (s.pc + BitVec.ofNat 8 (widthOf ir).bytes)) := by
      rw [commit_advance_of_lt hpc, ofNat_toNat_add]
    _ = .next { s with pc := s.pc + BitVec.ofNat 8 (widthOf ir).bytes } := rfl

end Sys2Proof.Machine

/-! # Faults and halting (family 60_exceptions)

A step is a row of checks, and `firstFault` states their order apart from `step`. `Reports` ties one checked part of a step
to the fault that the order names for it; its chaining rule, that the first failing part decides (R75, D27), carries the tie
from the single checks to the fetch, to every meaning and to the step. -/

namespace Sys2Proof.Machine

/-! ## HALTED (R84) -/

/-- A completed HLT leaves `pc` one on (R70). -/
theorem Completes.hlt_pc_eq {s t : State} (hc : Completes s .hlt t) : t.pc = s.pc + 1 := by
  cases hc with
  | hlt => rw [setPc_pc, advanceTarget, nextAddress_hlt, ofNat_toNat_add]; rfl

/-- Settles O43: of the ways a step can end, only a completed meaning ends in HALTED, and among these only HLT's. -/
theorem onlyHltHalts : Obligations.OnlyHltHalts := by
  intro s u h hhalted hs
  obtain rfl | ⟨hr, ⟨code, rfl⟩ | ⟨i, t, hop, ht, e⟩⟩ := step_cases_instr h
  · exact absurd hhalted hs
  · cases hhalted
  · rw [e] at hhalted ⊢
    obtain hc | ⟨code, rfl⟩ := exec_completes_or_faults ht
    · obtain ⟨hrun | ⟨rfl, -⟩, -⟩ := hc.run_and_record
      · exact absurd (hrun.symm.trans hhalted) hs
      · exact ⟨hop, hc.hlt_pc_eq⟩
    · cases hhalted

/-! ## A checked part of a step and the fault that it reports -/

/-- A checked part of a step fails with the given fault, or, where none is given, passes with a result that meets `P`. -/
def Reports {α : Type} (P : α → Prop) : Option FaultCause → Except FaultCause α → Prop
  | some code, x => x = .error code
  | none, x => ∃ a, x = .ok a ∧ P a

/-- Of two parts in a row, the first that fails decides (R75). -/
theorem Reports.bind {α β : Type} {P : α → Prop} {Q : β → Prop} {c d : Option FaultCause} {x : Except FaultCause α}
    {f : α → Except FaultCause β} (hx : Reports P c x) (hf : ∀ a, P a → Reports Q d (f a)) :
    Reports Q (c.or d) (x >>= f) := by
  cases c with
  | some code =>
    obtain rfl : x = .error code := hx
    rfl
  | none =>
    obtain ⟨a, rfl, ha⟩ := hx
    exact hf a ha

/-! ## The single checks -/

theorem reports_memRead (s : State) (addr : Nat) :
    Reports (cellAt s addr = some ·)
      (if 256 ≤ addr then some .invalidAddress else if cellAt s addr = none then some .uninitializedRead else none)
      (memRead s addr) := by
  split_ifs with htop hnone
  · exact memRead_of_ge htop
  · exact memRead_of_none (Nat.lt_of_not_le htop) hnone
  · obtain ⟨v, hv⟩ := Option.ne_none_iff_exists'.mp hnone
    exact ⟨v, memRead_of_some (Nat.lt_of_not_le htop) hv, hv⟩

/-- A byte is always an address, so the stack read of check (6) fails on an empty cell alone. -/
theorem reports_memRead_byte (s : State) (addr : Byte) :
    Reports (cellAt s addr.toNat = some ·) (if cellAt s addr.toNat = none then some .uninitializedRead else none)
      (memRead s addr.toNat) := by
  have h := reports_memRead s addr.toNat
  rwa [if_neg (Nat.not_le.mpr addr.isLt)] at h

theorem reports_checkAddress (addr : Nat) :
    Reports (fun p => addr < 256 ∧ p = BitVec.ofNat 8 addr) (if 256 ≤ addr then some .invalidAddress else none)
      (checkAddress addr) := by
  split_ifs with htop
  · exact checkAddress_of_ge htop
  · have hlt := Nat.lt_of_not_le htop
    exact ⟨_, checkAddress_of_lt hlt, hlt, rfl⟩

/-- Check (4) of an instruction with one register operand. -/
theorem reports_regIndex (a : Byte) :
    Reports (fun ra => a.toNat = ra.val) (if decide (a.toNat < 8) then none else some .invalidRegister)
      (regIndex a) := by
  rcases Nat.lt_or_ge a.toNat 8 with ha | ha
  · rw [decide_eq_true ha]
    exact ⟨⟨_, ha⟩, regIndex_of_lt _ rfl, rfl⟩
  · rw [decide_eq_false (Nat.not_lt.mpr ha)]
    exact regIndex_of_ge ha

/-- Checks (4) and (5) of an instruction with two register operands. -/
theorem reports_regIndexPair (a b : Byte) :
    Reports (fun r => a.toNat = r.1.val ∧ b.toNat = r.2.val)
      (if decide (a.toNat < 8) && decide (b.toNat < 8) then none else some .invalidRegister) (regIndexPair a b) := by
  by_cases h : a.toNat < 8 ∧ b.toNat < 8
  · rw [decide_eq_true h.1, decide_eq_true h.2]
    exact ⟨_, regIndexPair_of_lt ⟨_, h.1⟩ ⟨_, h.2⟩ rfl rfl, rfl, rfl⟩
  · rw [← Bool.decide_and, decide_eq_false h]
    exact regIndexPair_of_ge (by omega)

/-- Check (7), before a state that is complete but for its `pc`. -/
theorem reports_advance (i : Instr) {s t : State} (hclass : classOf i.opcode = .sequential)
    (hcompletes : nextAddress i.opcode s < 256 → Completes s i (setPc t (advanceTarget i.opcode s))) :
    Reports (Completes s i) (advanceFault s i) (advance (nextAddress i.opcode s) t) := by
  have hfault : advanceFault s i = if 256 ≤ nextAddress i.opcode s then some .invalidAddress else none := by
    rw [advanceFault, hclass]
    rfl
  rw [hfault]
  split_ifs with htop
  · exact advance_of_ge t htop
  · have hlt := Nat.lt_of_not_le htop
    exact ⟨_, advance_of_lt t hlt, hcompletes hlt⟩

/-! ## The fetch: checks (2) and (3) -/

theorem reports_fetchOperands (s : State) (w : Width) :
    Reports (· = operandsAt s w) (operandsFault s w) (fetchOperands s w) := by
  have hread := fun k => reports_memRead s (s.pc.toNat + k)
  cases w with
  | one => exact ⟨_, rfl, rfl⟩
  | two =>
    rw [operandsFault, ← Option.or_none (o := operandFault s 1)]
    refine (hread 1).bind fun a ha => ⟨_, rfl, ?_⟩
    rw [operandsAt, ha, Option.getD_some]
  | three =>
    rw [operandsFault, ← Option.or_none (o := operandFault s 2)]
    refine (hread 1).bind fun a ha => (hread 2).bind fun b hb => ⟨_, rfl, ?_⟩
    rw [operandsAt, ha, hb, Option.getD_some, Option.getD_some]

theorem reports_fetch {s : State} {ir : Byte} (hop : cellAt s s.pc.toNat = some ir) :
    Reports (· = { ir := ir, ops := operandsAt s (widthOf ir) }) (operandsFault s (widthOf ir)) (fetch s) := by
  rw [fetch_of_opcode hop, ← Option.or_none (o := operandsFault s (widthOf ir))]
  exact (reports_fetchOperands s (widthOf ir)).bind fun ops hops => ⟨_, rfl, by rw [hops]⟩

/-! ## The meanings: checks (4) to (7) -/

/-- `instrFault` with the register checks as the first of the row. -/
theorem instrFault_eq_or (s : State) (i : Instr) :
    instrFault s i =
      (if i.registersInRange then none else some .invalidRegister).or ((ownFault s i).or (advanceFault s i)) := by
  rw [instrFault]
  split <;> rfl

theorem classOf_of_opOf_none {ir : Byte} (h : opOf ir = none) : classOf ir = .sequential := by
  rw [classOf, h]

/-- What ADD, MUL and CMP share. -/
theorem reports_aluInstruction (i : Instr) {op : Op} {sel : BitVec 2} {a b : Byte} {s : State}
    (hop : i.opcode = opcodeOf op) (hclass : classOf i.opcode = .sequential)
    (hcompletes : ∀ ra rb : Fin 8, a.toNat = ra.val → b.toNat = rb.val → nextAddress i.opcode s < 256 →
      Completes s i (setPc (applyAlu ra (alu sel (getReg s ra) (getReg s rb)) s) (advanceTarget i.opcode s))) :
    Reports (Completes s i)
      ((if decide (a.toNat < 8) && decide (b.toNat < 8) then none else some .invalidRegister).or (advanceFault s i))
      (aluInstruction op sel a b s) := by
  rw [aluInstruction, ← hop]
  exact (reports_regIndexPair a b).bind fun ⟨ra, rb⟩ ⟨ha, hb⟩ => reports_advance i hclass (hcompletes ra rb ha hb)

/-- The meaning of a decoded instruction is the end of a step whose checked part reports checks (4) to (7) in their order
and else completes. -/
theorem exec_reports {i : Instr} (s : State) (hwf : i.wellFormed = true) :
    ∃ result, exec i s = commit s result ∧ Reports (Completes s i) (instrFault s i) result := by
  rw [instrFault_eq_or]
  cases i with
  | ldi a imm => exact ⟨_, rfl, (reports_regIndex a).bind fun ra ha => reports_advance (.ldi a imm) rfl (.ldi ha)⟩
  | add a b =>
    refine ⟨_, rfl, reports_aluInstruction (.add a b) rfl rfl fun ra rb ha hb hn => ?_⟩
    rw [applyAlu_add]
    exact .add ha hb hn
  | mul a b =>
    refine ⟨_, rfl, reports_aluInstruction (.mul a b) rfl rfl fun ra rb ha hb hn => ?_⟩
    rw [applyAlu_mul]
    exact .mul ha hb hn
  | cmp a b =>
    refine ⟨_, rfl, reports_aluInstruction (.cmp a b) rfl rfl fun ra rb ha hb hn => ?_⟩
    rw [applyAlu_cmp]
    exact .cmp ha hb hn
  | prn a => exact ⟨_, rfl, (reports_regIndex a).bind fun ra ha => reports_advance (.prn a) rfl (.prn ha)⟩
  | push a => exact ⟨_, rfl, (reports_regIndex a).bind fun ra ha => reports_advance (.push a) rfl (.push ha)⟩
  | pop a =>
    exact ⟨_, rfl, (reports_regIndex a).bind fun ra ha => (reports_memRead_byte s (sp s)).bind fun v hv =>
      reports_advance (.pop a) rfl (.pop ha hv)⟩
  | call a =>
    refine ⟨_, rfl, (reports_regIndex a).bind fun ra ha => (reports_checkAddress _).bind ?_⟩
    rintro p ⟨hn, rfl⟩
    exact ⟨_, rfl, .call ha hn⟩
  | ret => exact ⟨_, rfl, (reports_memRead_byte s (sp s)).bind fun v hv => ⟨_, rfl, .ret hv⟩⟩
  | hlt => exact ⟨_, rfl, reports_advance .hlt rfl .hlt⟩
  | unrecognized ir ops =>
    obtain ⟨hop, -⟩ := (wellFormed_unrecognized_iff ir ops).mp hwf
    exact ⟨_, rfl, reports_advance (.unrecognized ir ops) (classOf_of_opOf_none hop) .unrecognized⟩

/-! ## The step: checks (1) to (7) -/

/-- A step from `s` takes the fault entry with the given fault, or, where none is given, completes with the fault record
unwritten. -/
def StepEnds (s : State) : Option FaultCause → Prop
  | some code => step s = .next (enterFault code s)
  | none => ∃ t, step s = .next t ∧ t.run ≠ .faulted ∧ t.faultCode = s.faultCode

theorem stepEnds_of_fetch_ok {s : State} {f : Fetched} (hr : s.run = .running) (hf : fetch s = .ok f) :
    StepEnds s (instrFault s (assemble f.ir f.ops)) := by
  have hstep := step_of_fetch_ok hr hf
  obtain ⟨result, hexec, hres⟩ := exec_reports s (assemble_wellFormed (fetch_ops_width hf))
  rw [hexec] at hstep
  cases hfault : instrFault s (assemble f.ir f.ops) with
  | some code =>
    rw [hfault] at hres
    obtain rfl : result = .error code := hres
    exact hstep
  | none =>
    rw [hfault] at hres
    obtain ⟨t, rfl, hc⟩ := hres
    obtain ⟨-, hcode, -⟩ := hc.run_and_record
    have hrun := hc.not_faulted hr
    exact ⟨_, hstep.trans (latchOutcome_completed f hrun), hrun, hcode⟩

theorem firstFault_of_opcode_none {s : State} (hop : cellAt s s.pc.toNat = none) :
    firstFault s = some .uninitializedRead := by
  rw [firstFault, hop]

theorem firstFault_of_opcode {s : State} {ir : Byte} (hop : cellAt s s.pc.toNat = some ir) :
    firstFault s =
      (operandsFault s (widthOf ir)).or (instrFault s (assemble ir (operandsAt s (widthOf ir)))) := by
  rw [firstFault, hop]

/-- The fetch reports checks (1) to (3), and once it has passed, the meaning reports the rest. -/
theorem stepEnds_firstFault {s : State} (hr : s.run = .running) : StepEnds s (firstFault s) := by
  cases hop : cellAt s s.pc.toNat with
  | none =>
    rw [firstFault_of_opcode_none hop]
    exact step_of_fetch_error hr (fetch_of_opcode_none hop)
  | some ir =>
    rw [firstFault_of_opcode hop]
    have hfetch := reports_fetch hop
    cases hops : operandsFault s (widthOf ir) with
    | some code =>
      rw [hops] at hfetch
      exact step_of_fetch_error hr hfetch
    | none =>
      rw [hops] at hfetch
      obtain ⟨f, hf, rfl⟩ := hfetch
      exact stepEnds_of_fetch_ok hr hf

/-- Settles O17: the step ends as `firstFault` says, by the chaining of its checks. -/
theorem firstFailingCheckDecides : Obligations.FirstFailingCheckDecides := by
  intro s hr
  have hends := stepEnds_firstFault hr
  refine ⟨fun code hfault => ?_, fun hfault => ?_⟩
  · rw [hfault] at hends
    exact hends
  · rw [hfault] at hends
    exact hends

end Sys2Proof.Machine

/-! # Reset from any state, and the images that boot refuses (family 70_reset_and_hazards) -/

namespace Sys2Proof.Machine

/-! ## Reset -/

/-- The registers are those of `State.reset`, whatever the state before (R12, R85). -/
theorem getReg_resetBlock (s : State) (r : Fin 8) : getReg (resetBlock s) r = if r = 7 then 0xF4 else 0 := by
  obtain ⟨hlow, hsp⟩ := resetRegisterValues
  have hreset : getReg (resetBlock s) r = getReg State.reset r := getReg_congr rfl r
  rw [hreset]
  split_ifs with hr
  · rw [hr, hsp]
  · exact hlow r (by omega)

/-- Memory is outside the block, so reset keeps its content (R86). -/
theorem sameCells_resetBlock (s : State) : sameCells s (resetBlock s) := cellAt_congr rfl rfl

/-- Settles O3: the block's fields are those of `State.reset`, and memory is that of the state before. -/
theorem resetBlockFromAnyState : Obligations.ResetBlockFromAnyState := by
  intro s
  obtain ⟨hpc, hflags, hrun, hcode, hfaultPc, hout⟩ := resetLeavesTheRestAsStated
  exact ⟨getReg_resetBlock s, hpc, hflags, hrun, hcode, hfaultPc, hout, sameCells_resetBlock s⟩

/-! ## Images that do not fit -/

/-- The converse of `imageFits_of_le`. -/
theorem le_of_imageFits {image : List Nat} (h : imageFits image = true) :
    image.length ≤ 256 ∧ ∀ v ∈ image, v < 256 := by
  rw [imageFits, Bool.and_eq_true, decide_eq_true_eq, List.all_eq_true] at h
  obtain ⟨hlen, hbytes⟩ := h
  exact ⟨hlen, fun v hv => of_decide_eq_true (hbytes v hv)⟩

/-- Boot of an image that does not fit is refused (R88). -/
theorem boot_of_not_fits {image : List Nat} (mi : MemInit) (h : imageFits image ≠ true) : boot mi image = none := by
  rw [boot, if_neg h]

/-- Settles O5: an image that fits has neither too many values nor one that is no byte. -/
theorem bootRefusesWhatDoesNotFit : Obligations.BootRefusesWhatDoesNotFit := by
  intro mi image hbad
  refine boot_of_not_fits mi fun hfits => ?_
  obtain ⟨hlen, hbytes⟩ := le_of_imageFits hfits
  obtain hlong | ⟨v, hv, hbig⟩ := hbad
  · exact Nat.not_lt.mpr hlen hlong
  · exact Nat.not_lt.mpr hbig (hbytes v hv)

end Sys2Proof.Machine
